-- ==== Sys2Proof/Word.lean ====
section
/-! DEFINITION. The word types of the command port (spec/20_memory.md R56, spec/30_encoding.md R70, R79) and of the
slot registers (spec/10_state.md R21). Bit 0 is the least significant bit of each (spec/00_scope.md R8). -/

namespace Sys2Proof

/-- A command word: one whole 64-bit word is one command (R70, R57). -/
abbrev CommandWord := BitVec 64

/-- A response word: every command produces exactly one (R79). -/
abbrev ResponseWord := BitVec 32

/-- One byte of a word carried over a byte-wide link (R56). -/
abbrev Byte := BitVec 8

/-- The 32-bit unsigned fraction of a cycle held in PHASE and INC: the value `x` means `x / 2^32` cycles (R21, R27, R28). -/
abbrev CycleFraction := BitVec 32

/-- The 15-bit noise shift register; bit 0 is its output bit (R21, R29). -/
abbrev Lfsr := BitVec 15

end Sys2Proof
end

