-- ==== Sys2Proof/Syntax.lean ====
section
/-! DEFINITION. The commands of the block as syntax: one constructor per row of spec/opcode_table.json
(spec/30_encoding.md R75, R76), and the six waveform kinds (R74). -/

namespace Sys2Proof

/-- WaveformKind: the six kinds the WAVE register can hold (R74, R24). The codes 6 and 7 never reach the register (log 9). -/
inductive Waveform where
  | square
  | pulse25
  | pulse12_5
  | triangle
  | noiseLong
  | noiseShort
  deriving DecidableEq, Repr

/-- A decoded command. Operands are the fields the command uses (R70), and for NOTE_ON with a reserved WAVE the fields its
listing writes (R83), which the command ignores. -/
inductive Instr where
  /-- NOP, OP = 0 (R131). -/
  | nop
  /-- TICK, OP = 1 (R160). -/
  | tick
  /-- NOTE_ON, OP = 2 with WAVE 0 to 5 (R132). -/
  | noteOn (ch : BitVec 4) (note : BitVec 7) (wave : Waveform) (vol : BitVec 7) (inc : CycleFraction)
  /-- NOTE_ON_RSVD_WAVE, OP = 2 with WAVE 6 or 7 (R132). -/
  | noteOnRsvdWave (ch : BitVec 4) (note : BitVec 7) (wave : BitVec 3) (vol : BitVec 7) (inc : CycleFraction)
  /-- NOTE_OFF, OP = 3 (R135). -/
  | noteOff (ch : BitVec 4) (note : BitVec 7)
  /-- RSVD, the table's first reserved row: OP = 4 to 7 (R137). -/
  | rsvdLow (op : BitVec 4)
  /-- RSVD, the table's second reserved row: OP = 8 to 15 (R137). -/
  | rsvdHigh (op : BitVec 4)
  deriving DecidableEq, Repr

end Sys2Proof
end

