-- ==== Sys2Proof/Decode.lean ====
section
/-! DEFINITION. The command word's fields, the decoder (spec/30_encoding.md R70 to R78), the bytes of a word on a byte-wide
link (spec/20_memory.md R56, R57), the encoder (R83) and the rows of spec/opcode_table.json. -/

namespace Sys2Proof

/-- `OP = w[63:60]` (R70, R71). -/
def opField (w : CommandWord) : BitVec 4 := w.extractLsb' 60 4

/-- `CH = w[59:56]` (R70, R71). -/
def chField (w : CommandWord) : BitVec 4 := w.extractLsb' 56 4

/-- `NOTE = w[55:49]` (R70, R71). -/
def noteField (w : CommandWord) : BitVec 7 := w.extractLsb' 49 7

/-- `WAVE = w[48:46]` (R70, R71). -/
def waveField (w : CommandWord) : BitVec 3 := w.extractLsb' 46 3

/-- `VOL = w[45:39]` (R70, R71). -/
def volField (w : CommandWord) : BitVec 7 := w.extractLsb' 39 7

/-- `INC = w[31:0]` (R70, R71). -/
def incField (w : CommandWord) : CycleFraction := w.extractLsb' 0 32

/-- The WaveformKind code of a kind (R74). -/
def Waveform.code : Waveform → BitVec 3
  | .square => 0
  | .pulse25 => 1
  | .pulse12_5 => 2
  | .triangle => 3
  | .noiseLong => 4
  | .noiseShort => 5

/-- The kind a WAVE code names, none for the reserved codes 6 and 7 (R74). -/
def Waveform.ofCode (code : BitVec 3) : Option Waveform :=
  if code = 0 then some .square
  else if code = 1 then some .pulse25
  else if code = 2 then some .pulse12_5
  else if code = 3 then some .triangle
  else if code = 4 then some .noiseLong
  else if code = 5 then some .noiseShort
  else none

/-- The command a word stands for: total, OP tested first and WAVE only for OP = 2 (R75, R76). -/
def decode (w : CommandWord) : Instr :=
  if opField w = 0 then .nop
  else if opField w = 1 then .tick
  else if opField w = 2 then
    match Waveform.ofCode (waveField w) with
    | some kind => .noteOn (chField w) (noteField w) kind (volField w) (incField w)
    | none => .noteOnRsvdWave (chField w) (noteField w) (waveField w) (volField w) (incField w)
  else if opField w = 3 then .noteOff (chField w) (noteField w)
  else if (opField w).toNat ≤ 7 then .rsvdLow (opField w)
  else .rsvdHigh (opField w)

/-- The bytes of a command word in the order a byte-wide link carries them: byte 0 is bits 7:0 (R56). -/
def bytesOfCommand (w : CommandWord) : List Byte :=
  [w.extractLsb' 0 8, w.extractLsb' 8 8, w.extractLsb' 16 8, w.extractLsb' 24 8,
   w.extractLsb' 32 8, w.extractLsb' 40 8, w.extractLsb' 48 8, w.extractLsb' 56 8]

/-- The bytes of a response word, in the same order (R56). -/
def bytesOfResponse (r : ResponseWord) : List Byte :=
  [r.extractLsb' 0 8, r.extractLsb' 8 8, r.extractLsb' 16 8, r.extractLsb' 24 8]

/-- Why bytes are no command: fewer than eight of them, a partial word (R57). -/
inductive DecodeError where
  | partialWord
  deriving DecidableEq, Repr

/-- The first command word of a run of bytes, least significant byte first, and the bytes after it (R56, R57). -/
def commandOfBytes : List Byte → Except DecodeError (CommandWord × List Byte)
  | b0 :: b1 :: b2 :: b3 :: b4 :: b5 :: b6 :: b7 :: rest =>
    .ok (b7 ++ b6 ++ b5 ++ b4 ++ b3 ++ b2 ++ b1 ++ b0, rest)
  | _ => .error .partialWord

/-- Decoding of bytes: the first whole word decodes by `decode`; a partial word is rejected by name (R57, R76). -/
def decodeBytes (bytes : List Byte) : Except DecodeError (Instr × List Byte) :=
  match commandOfBytes bytes with
  | .ok (w, rest) => .ok (decode w, rest)
  | .error e => .error e

/-- The whole command words a run of bytes carries, in order; a partial word at its end is not a command (R56, R57). -/
def commandsOfBytes : List Byte → List CommandWord
  | b0 :: b1 :: b2 :: b3 :: b4 :: b5 :: b6 :: b7 :: rest =>
    (b7 ++ b6 ++ b5 ++ b4 ++ b3 ++ b2 ++ b1 ++ b0) :: commandsOfBytes rest
  | _ => []

/-- The word with the given fields and RSV = 0 (R70, R83). -/
def packFields (op ch : BitVec 4) (note : BitVec 7) (wave : BitVec 3) (vol : BitVec 7) (inc : CycleFraction) : CommandWord :=
  op ++ ch ++ note ++ wave ++ vol ++ (0 : BitVec 7) ++ inc

/-- The word of a command, every field the command does not use being 0 (R75, R83). -/
def encode : Instr → CommandWord
  | .nop => packFields 0 0 0 0 0 0
  | .tick => packFields 1 0 0 0 0 0
  | .noteOn ch note wave vol inc => packFields 2 ch note wave.code vol inc
  | .noteOnRsvdWave ch note wave vol inc => packFields 2 ch note wave vol inc
  | .noteOff ch note => packFields 3 ch note 0 0 0
  | .rsvdLow op => packFields op 0 0 0 0 0
  | .rsvdHigh op => packFields op 0 0 0 0 0

/-- The command code OP of a command (R75), which its response echoes (R79). -/
def Instr.opcode : Instr → BitVec 4
  | .nop => 0
  | .tick => 1
  | .noteOn _ _ _ _ _ => 2
  | .noteOnRsvdWave _ _ _ _ _ => 2
  | .noteOff _ _ => 3
  | .rsvdLow op => op
  | .rsvdHigh op => op

/-- The "mask" of a command's row of spec/opcode_table.json. -/
def Instr.tableMask : Instr → CommandWord
  | .nop => 0xF000000000000000
  | .tick => 0xF000000000000000
  | .noteOn _ _ _ _ _ => 0xF000000000000000
  | .noteOnRsvdWave _ _ _ _ _ => 0xF001800000000000
  | .noteOff _ _ => 0xF000000000000000
  | .rsvdLow _ => 0xC000000000000000
  | .rsvdHigh _ => 0x8000000000000000

/-- The "match" of a command's row of spec/opcode_table.json. -/
def Instr.tableMatch : Instr → CommandWord
  | .nop => 0x0000000000000000
  | .tick => 0x1000000000000000
  | .noteOn _ _ _ _ _ => 0x2000000000000000
  | .noteOnRsvdWave _ _ _ _ _ => 0x2001800000000000
  | .noteOff _ _ => 0x3000000000000000
  | .rsvdLow _ => 0x4000000000000000
  | .rsvdHigh _ => 0x8000000000000000

/-- The bits of a command's word that its encoding gives back: its used fields, and for NOTE_ON with a reserved WAVE the
fields its listing writes (R70, R72, R73, R83). -/
def Instr.keptBits : Instr → CommandWord
  | .nop => 0xF000000000000000
  | .tick => 0xF000000000000000
  | .noteOn _ _ _ _ _ => 0xFFFFFF80FFFFFFFF
  | .noteOnRsvdWave _ _ _ _ _ => 0xFFFFFF80FFFFFFFF
  | .noteOff _ _ => 0xFFFE000000000000
  | .rsvdLow _ => 0xF000000000000000
  | .rsvdHigh _ => 0xF000000000000000

/-- The command word a table row's bits stand for: bit 0 of `w` is bit 0 of the word, and every bit from `nbits` up is 0. -/
def tableCommandWord (nbits w : Nat) : CommandWord := BitVec.ofNat 64 (w % 2 ^ nbits)

/-- What the decoder reads from an instruction whose bits are `w`, carried byte by byte as the link carries it (R56). -/
def decodeTableWord (nbits w : Nat) : Option Instr :=
  match decodeBytes (bytesOfCommand (tableCommandWord nbits w)) with
  | .ok (i, _) => some i
  | .error _ => none

end Sys2Proof
end

