-- ==== Sys2Proof/Config.lean ====
section
/-! DEFINITION. What an implementation of the block fixes when it is built (spec/00_scope.md R6), and the one free value of
the model: which host agent goes first (spec/20_memory.md R54). -/

namespace Sys2Proof

/-- The parameter POOL_MODE (R6, R22, D10): one flat pool, or 16 channels of voices. -/
inductive PoolMode where
  | flat
  | multi
  deriving DecidableEq, Repr

/-- The parameter NOISE_RATES (R6, R111, D16): update rates 4 and 2, or 8 and 4. -/
inductive NoiseRates where
  | fast
  | slow
  deriving DecidableEq, Repr

/-- The named parameters of the block (R6, R237), fixed for its life: no command changes them. A state carries its
parameters, so a statement about every state is a statement for every value of them (log 1). -/
structure Config where
  /-- POOL_MODE. -/
  poolMode : PoolMode
  /-- V, the voices per channel (in FLAT mode the whole pool); legal values 1 to 255. -/
  voicesPerChannel : Nat
  /-- NOISE_RATES. -/
  noiseRates : NoiseRates
  /-- CMD_LATENCY, a bound on a time, in a unit the spec does not name; no rule reads it (R237, D33, log 11). -/
  cmdLatency : Nat
  deriving DecidableEq, Repr

/-- The two host agents that issue commands (R54, R207). -/
inductive Agent where
  /-- Issues one TICK per output frame. -/
  | sampleClock
  /-- Issues NOTE_ON and NOTE_OFF. -/
  | eventController
  deriving DecidableEq, Repr, Inhabited

/-- FREE VALUE (DESIGN CHOICE, safe, log 4): the agent whose command is taken first at the `n`-th contention. R54 leaves it
open, so nothing constrains it; a statement true of the model is true for every order of arbitration. -/
opaque Config.arbiter : Nat → Agent

end Sys2Proof
end

