-- ==== Sys2Proof/Machine/Params.lean ====
section
/-! DEFINITION. The fixed values of the hardware (spec/00_scope.md R5) and what follows from its parameters (R6). -/

namespace Sys2Proof.Machine

open Sys2Proof

/-- `A`, the full-scale amplitude (R5). -/
def fullScale : Int := 32767

/-- `LFSR_SEED` (R5, D14). -/
def lfsrSeed : Lfsr := 0x0001

/-- `NCH`, the number of channels: 1 in FLAT mode, 16 in MULTI mode (R6). -/
def numChannels (cfg : Config) : Nat :=
  match cfg.poolMode with
  | .flat => 1
  | .multi => 16

/-- `RATE_LONG`: 4 when NOISE_RATES = FAST, 8 when SLOW (R6, R111). -/
def rateLong (cfg : Config) : Nat :=
  match cfg.noiseRates with
  | .fast => 4
  | .slow => 8

/-- `RATE_SHORT`: 2 when NOISE_RATES = FAST, 4 when SLOW (R6, R111). -/
def rateShort (cfg : Config) : Nat :=
  match cfg.noiseRates with
  | .fast => 2
  | .slow => 4

/-- The parameters `State.reset` is built with. The spec leaves them open (R6): DESIGN CHOICE, unsafe for a statement about
`State.reset` alone (log 2). They are those of the spec's own program P1 (spec/95_test_vectors.md); no obligation
rests on which legal values they are. -/
def buildParameters : Config :=
  { poolMode := .flat, voicesPerChannel := 4, noiseRates := .fast, cmdLatency := 0 }

end Sys2Proof.Machine
end

