-- ==== Sys2Proof/Machine/Voice.lean ====
section
/-! DEFINITION. One voice slot `v[c][j]` (spec/10_state.md R21), its reset value (spec/70_reset_and_hazards.md R230) and the
value NOTE_ON loads (spec/41_voice_commands.md R132). -/

namespace Sys2Proof.Machine

open Sys2Proof

/-- The seven fields of a voice slot, at the widths of R21. -/
structure Voice where
  /-- ACTIVE, the sole authority on whether the slot contributes to the output (R23). -/
  active : Bool
  /-- WAVE, a snapshot taken by NOTE_ON (R24). -/
  wave : Waveform
  /-- NOTE, read by NOTE_OFF alone (R25). -/
  note : BitVec 7
  /-- VOL, the volume VOL / 127 (R26). -/
  vol : BitVec 7
  /-- INC, the phase increment per tick (R27). -/
  inc : CycleFraction
  /-- PHASE, the phase accumulator (R28). -/
  phase : CycleFraction
  /-- LFSR, the slot's own noise register (R29). -/
  lfsr : Lfsr
  deriving DecidableEq, Repr

/-- A slot at the reset values of R21 (R230). -/
def Voice.reset : Voice :=
  { active := false, wave := .square, note := 0, vol := 0, inc := 0, phase := 0, lfsr := lfsrSeed }

/-- The slot after NOTE_ON has loaded it: every field rewritten (R132). -/
def Voice.load (note : BitVec 7) (wave : Waveform) (vol : BitVec 7) (inc : CycleFraction) : Voice :=
  { active := true, wave := wave, note := note, vol := vol, inc := inc, phase := 0, lfsr := lfsrSeed }

/-- The slot after it was released: only ACTIVE is written (R135). -/
def Voice.release (v : Voice) : Voice := { v with active := false }

/-- The test of NOTE_OFF: active, and holding the note (R135). -/
def Voice.sounds (note : BitVec 7) (v : Voice) : Bool := v.active && decide (v.note = note)

/-- The voice register file at reset: NCH rows of V slots, each at its reset value (R22, R230). -/
def resetPool (cfg : Config) : List (List Voice) :=
  List.replicate (numChannels cfg) (List.replicate cfg.voicesPerChannel Voice.reset)

end Sys2Proof.Machine
end

