-- ==== Sys2Proof/Machine/State.lean ====
section
/-! DEFINITION. The state of the block (spec/10_state.md R20: the voice register file and the tick counter, nothing else), the
parameters it was built with (spec/00_scope.md R6), and the model's own fields: what stands at the command port. -/

namespace Sys2Proof.Machine

open Sys2Proof

/-- How a reset the host asserts meets the command port (R231, log 7). -/
inductive ResetTiming where
  /-- No command is in progress: every command not yet accepted is accepted after the reset. -/
  | betweenCommands
  /-- The command the block takes next is in progress when reset is applied: it has no effect and no response. -/
  | duringCommand
  deriving DecidableEq, Repr

/-- The state of the machine. `voices` and `tick` are the architectural state (R20). -/
structure State where
  /-- The parameters of the block (R6); no step writes them (log 1). -/
  cfg : Config
  /-- The voice register file `v[c][j]`: row `c`, slot `j` (R22). -/
  voices : List (List Voice)
  /-- TICK, the number of TICK commands since reset modulo 2^32 (R31). -/
  tick : BitVec 32
  /-- Model's own: commands the Sample Clock has issued and the block has not accepted, oldest first (R54, log 3). -/
  clockStream : List CommandWord
  /-- Model's own: the same for the Event Controller (R54, log 3). -/
  eventStream : List CommandWord
  /-- Model's own: the argument of the free value `Config.arbiter` (R54, log 4). -/
  contentions : Nat
  /-- Model's own: a reset the host has asserted and the block has not applied yet (R231, log 7). -/
  resetLine : Option ResetTiming
  /-- Model's own: the response words delivered to the host, oldest first (R79, log 5). -/
  responses : List ResponseWord
  deriving DecidableEq, Repr

/-- The reasons a step can fault: none. The block raises no exception and nothing in it is modelled as a fault (R200, 93
section 2, log 15). The type has no constructor, so that no step faults holds by its form. -/
inductive Fault where
  deriving DecidableEq, Repr

/-- The reasons a step can refuse: only an instruction without a meaning, of which there is none. -/
inductive Refusal where
  /-- Raised by an arm of `exec` whose instruction has no meaning yet; every instruction has one, so nothing raises it. Safe. -/
  | notModelled (mnemonic : String)
  deriving DecidableEq, Repr

/-- The state after reset at power-up of a block built with the parameters `cfg` (R230): every slot at its reset values and
TICK 0; nothing issued, nothing delivered (log 3, log 5). -/
def State.resetWith (cfg : Config) : State :=
  { cfg := cfg
    voices := resetPool cfg
    tick := 0
    clockStream := []
    eventStream := []
    contentions := 0
    resetLine := none
    responses := [] }

/-- The state right after reset, for the parameters the log names (log 2). -/
def State.reset : State := State.resetWith buildParameters

end Sys2Proof.Machine
end

