-- ==== Sys2Proof/Machine/Operands.lean ====
section
/-! DEFINITION. What the operands of the commands select: the channel a CH field names (spec/30_encoding.md R77), the slot an
allocation takes (spec/41_voice_commands.md R130, R133), and the truncating division of the mixer (spec/00_scope.md R8). -/

namespace Sys2Proof.Machine

open Sys2Proof

/-- `chan(CH)`: 0 in FLAT mode, CH in MULTI mode (R77). -/
def chan (cfg : Config) (ch : BitVec 4) : Nat :=
  match cfg.poolMode with
  | .flat => 0
  | .multi => ch.toNat

/-- `alloc(c)` on the row of channel `c`: the lowest inactive slot, or slot 0 when there is none (R130, R133). -/
def alloc (row : List Voice) : Nat := (row.findIdx? (fun v => !v.active)).getD 0

/-- `tdiv(a, b) = sign(a) * floor(|a| / b)` (R8, D7). -/
def tdiv (a : Int) (b : Nat) : Int := a.sign * ((a.natAbs / b : Nat) : Int)

end Sys2Proof.Machine
end

