-- ==== Sys2Proof/Machine/Flags.lean ====
section
/-! DEFINITION. The response word and its one flag IGN (spec/30_encoding.md R79, R80; spec/10_state.md R32). -/

namespace Sys2Proof.Machine

open Sys2Proof

/-- The word `emit(IGN, OP, SLOT, SAMPLE)` delivers: IGN in bit 31, OP in 27:24, SLOT in 23:16, SAMPLE modulo 2^16 in 15:0,
and 30:28 zero (R80). -/
def responseWord (ign : Bool) (op : BitVec 4) (slot : Nat) (sample : Int) : ResponseWord :=
  BitVec.ofBool ign ++ (0 : BitVec 3) ++ op ++ BitVec.ofNat 8 slot ++ BitVec.ofInt 16 sample

/-- The IGN flag of a response (R79). -/
def ResponseWord.ign (r : ResponseWord) : Bool := r.getLsbD 31

/-- The reserved bits 30:28 of a response (R79). -/
def ResponseWord.reservedBits (r : ResponseWord) : BitVec 3 := r.extractLsb' 28 3

/-- The OPR field of a response: the echoed command code (R79). -/
def ResponseWord.opr (r : ResponseWord) : BitVec 4 := r.extractLsb' 24 4

/-- The SLOT field of a response (R79). -/
def ResponseWord.slot (r : ResponseWord) : Nat := (r.extractLsb' 16 8).toNat

/-- The sample as the host reads it back: `sext_16(resp[15:0])` (R80). -/
def ResponseWord.sample (r : ResponseWord) : Int := (r.extractLsb' 0 16).toInt

end Sys2Proof.Machine
end

