-- ==== Sys2Proof/Machine/Ops.lean ====
section
/-! DEFINITION. The named operations on the state: reading and writing slots and rows (spec/00_scope.md R9), delivering a
response (spec/30_encoding.md R80), ignoring a command (spec/60_exceptions.md R201, the block's analogue of an exception),
accepting a command from the host agents (spec/20_memory.md R53, R54), reset (spec/70_reset_and_hazards.md R230, R231), and
what the host can do between steps. -/

namespace Sys2Proof.Machine

open Sys2Proof

/-- The slots of channel `c`; a channel the register file lacks has none (a state no run reaches, log 10). -/
def State.row (s : State) (c : Nat) : List Voice := s.voices[c]?.getD []

/-- `v[c][j]` (R9), none where the register file has no such slot. -/
def State.slot? (s : State) (c j : Nat) : Option Voice := (s.row c)[j]?

/-- Write the slots of channel `c`; no other channel changes. -/
def State.withRow (s : State) (c : Nat) (row : List Voice) : State := { s with voices := s.voices.set c row }

/-- Write the whole voice register file and the tick counter, as TICK does. -/
def State.withPoolAndTick (s : State) (voices : List (List Voice)) (tick : BitVec 32) : State :=
  { s with voices := voices, tick := tick }

/-- `emit`: deliver a command's response word to the host (R80). -/
def State.emit (s : State) (r : ResponseWord) : State := { s with responses := s.responses ++ [r] }

/-- A command is ignored: no state changes and the response has IGN = 1 with the command code echoed (R201). -/
def State.ignore (s : State) (op : BitVec 4) : State := s.emit (responseWord true op 0 0)

/-- The command the block takes next and the state with that command taken from its agent's stream; none when no agent has
issued one. Each stream is taken in its own order; when both agents have a command, the free value decides (R53, R54). -/
def State.accept (s : State) : Option (CommandWord × State) :=
  match s.clockStream, s.eventStream with
  | [], [] => none
  | w :: rest, [] => some (w, { s with clockStream := rest })
  | [], w :: rest => some (w, { s with eventStream := rest })
  | wc :: restc, we :: reste =>
    match Config.arbiter s.contentions with
    | .sampleClock => some (wc, { s with clockStream := restc, contentions := s.contentions + 1 })
    | .eventController => some (we, { s with eventStream := reste, contentions := s.contentions + 1 })

/-- What reset does to the block: every slot to its reset values and TICK to 0, with no response (R230). -/
def State.clear (s : State) : State := s.withPoolAndTick (resetPool s.cfg) 0

/-- The state after the command in progress was aborted: it was accepted, has no effect and no response (R231). -/
def State.abort (s : State) : State :=
  match s.accept with
  | none => s
  | some (_, t) => t

/-- Apply an asserted reset: abort the command in progress, if there is one, clear the block, and take the request away
(R230, R231, log 7). -/
def State.applyReset (s : State) (timing : ResetTiming) : State :=
  let aborted := match timing with
    | .betweenCommands => s
    | .duringCommand => s.abort
  { aborted.clear with resetLine := none }

/-- The host, between steps: an agent issues a command (R54, R206: every agent may issue every command). -/
def State.present (s : State) (agent : Agent) (w : CommandWord) : State :=
  match agent with
  | .sampleClock => { s with clockStream := s.clockStream ++ [w] }
  | .eventController => { s with eventStream := s.eventStream ++ [w] }

/-- The host, between steps: assert reset (R230). -/
def State.assertReset (s : State) (timing : ResetTiming) : State := { s with resetLine := some timing }

end Sys2Proof.Machine
end

