-- ==== Sys2Proof/Machine/Oscillator.lean ====
section
/-! DEFINITION. The oscillator bank and the LFSR noise engines (spec/40_oscillator_bank.md). -/

namespace Sys2Proof.Machine

open Sys2Proof

/-- `+32767` or `-32767`. -/
def highOrLow (high : Bool) : Int := if high then fullScale else -fullScale

/-- Square, code 0: high while the phase is below 0.5 (R101). -/
def square (p : CycleFraction) : Int := highOrLow (decide (p < 0x80000000))

/-- Pulse25, code 1: high while the phase is below 0.25 (R102). -/
def pulse25 (p : CycleFraction) : Int := highOrLow (decide (p < 0x40000000))

/-- Pulse12_5, code 2: high while the phase is below 0.125 (R103). -/
def pulse12_5 (p : CycleFraction) : Int := highOrLow (decide (p < 0x20000000))

/-- The triangle's level, 0 to 15, evaluated exactly (R104). -/
def triLevel (p : CycleFraction) : Nat :=
  if p < 0x80000000 then 30 * p.toNat / 2 ^ 32 else 30 * (2 ^ 32 - p.toNat) / 2 ^ 32

/-- Triangle, code 3: the level scaled by 32767 / 15, not centred (R105, R106). -/
def triangle (p : CycleFraction) : Int := ((triLevel p * 32767 / 15 : Nat) : Int)

/-- The noise output: high when bit 0 of the slot's register is set (R108). -/
def noiseOut (x : Lfsr) : Int := highOrLow (x.getLsbD 0)

/-- `osc(WAVE, PHASE, LFSR)` (R100). -/
def osc (wave : Waveform) (phase : CycleFraction) (lfsr : Lfsr) : Int :=
  match wave with
  | .square => square phase
  | .pulse25 => pulse25 phase
  | .pulse12_5 => pulse12_5 phase
  | .triangle => triangle phase
  | .noiseLong => noiseOut lfsr
  | .noiseShort => noiseOut lfsr

/-- Shift right by one, inserting bit 0 XOR the tap bit at bit 14 (R109, R110). -/
def lfsrShift (tap : Nat) (x : Lfsr) : Lfsr :=
  (x >>> 1) ||| ((BitVec.ofBool (x.getLsbD 0 ^^ x.getLsbD tap)).setWidth 15 <<< 14)

/-- The long tap configuration: bits 0 and 1 (R109). -/
def lfsrStepLong (x : Lfsr) : Lfsr := lfsrShift 1 x

/-- The short tap configuration: bits 0 and 6 (R110). -/
def lfsrStepShort (x : Lfsr) : Lfsr := lfsrShift 6 x

/-- Whether a waveform is one of the two noise kinds, codes 4 and 5 (R74, R161). -/
def isNoise : Waveform → Bool
  | .square => false
  | .pulse25 => false
  | .pulse12_5 => false
  | .triangle => false
  | .noiseLong => true
  | .noiseShort => true

/-- `lfsr_step(WAVE, x)`, used for the noise kinds (R111). -/
def lfsrStep (wave : Waveform) (x : Lfsr) : Lfsr :=
  if wave = .noiseLong then lfsrStepLong x else lfsrStepShort x

/-- `rate(WAVE)`, used for the noise kinds (R111). -/
def noiseRate (cfg : Config) (wave : Waveform) : Nat :=
  if wave = .noiseLong then rateLong cfg else rateShort cfg

end Sys2Proof.Machine
end

