-- ==== Sys2Proof/Machine/Mixer.lean ====
section
/-! DEFINITION. What a TICK computes of one slot, the channel mixes and the final mix (spec/42_tick_mixer.md R160 to R168). -/

namespace Sys2Proof.Machine

open Sys2Proof

/-- `L[c][j]`: the register after this tick's noise update, which a noise slot makes on the update ticks of its own rate (R161). -/
def Voice.nextLfsr (cfg : Config) (t : BitVec 32) (v : Voice) : Lfsr :=
  if isNoise v.wave && decide (t.toNat % noiseRate cfg v.wave = 0) then lfsrStep v.wave v.lfsr else v.lfsr

/-- `x[c][j]`: the oscillator sample, from PHASE before its advance and LFSR after its update (R162). -/
def Voice.sample (cfg : Config) (t : BitVec 32) (v : Voice) : Int := osc v.wave v.phase (v.nextLfsr cfg t)

/-- The per-voice product `x * VOL` (R163). -/
def Voice.product (cfg : Config) (t : BitVec 32) (v : Voice) : Int := v.sample cfg t * (v.vol.toNat : Int)

/-- The slot after a TICK: PHASE and LFSR of an active slot advance, an inactive slot keeps its values (R167, R173). -/
def Voice.advance (cfg : Config) (t : BitVec 32) (v : Voice) : Voice :=
  if v.active then { v with phase := v.phase + v.inc, lfsr := v.nextLfsr cfg t } else v

/-- `n[c]`: how many slots of a channel are active (R160). -/
def activeCount (row : List Voice) : Nat := (row.filter (fun v => v.active)).length

/-- `S[c]`: the exact sum of the active slots' products (R164). -/
def channelSum (cfg : Config) (t : BitVec 32) (row : List Voice) : Int :=
  ((row.filter (fun v => v.active)).map (fun v => v.product cfg t)).sum

/-- `mix[c]`: the channel's average, truncated toward zero; 0 for a silent channel (R165). -/
def channelMix (cfg : Config) (t : BitVec 32) (row : List Voice) : Int :=
  if activeCount row = 0 then 0 else tdiv (channelSum cfg t row) (127 * activeCount row)

/-- `out`: the average of the channel mixes that are not 0; 0 when all are (R166). -/
def finalMix (mixes : List Int) : Int :=
  let nonzero := mixes.filter (fun m => decide (m ≠ 0))
  if nonzero = [] then 0 else tdiv nonzero.sum nonzero.length

/-- The output sample a TICK of this state produces (R160 steps 1 to 4). -/
def State.outputSample (s : State) : Int := finalMix (s.voices.map (channelMix s.cfg s.tick))

/-- The writes of a TICK: every active slot advances and TICK counts on modulo 2^32 (R160 step 5, R167, R168). -/
def State.advance (s : State) : State :=
  s.withPoolAndTick (s.voices.map (fun row => row.map (fun v => v.advance s.cfg s.tick))) (s.tick + 1)

end Sys2Proof.Machine
end

