-- ==== Sys2Proof/Machine/Tick.lean ====
section
/-! DEFINITION. The meaning of TICK (spec/42_tick_mixer.md R160). -/

namespace Sys2Proof.Machine

open Sys2Proof

/-- TICK: answer one output sample, computed from the state before the command, and advance every active slot and TICK
(R160, R169). -/
def execTick (s : State) : Host.Outcome State Fault Refusal :=
  .next (s.advance.emit (responseWord false 1 0 s.outputSample))

end Sys2Proof.Machine
end

