-- ==== Sys2Proof/Machine/VoiceCommands.lean ====
section
/-! DEFINITION. The meanings of NOP, NOTE_ON, NOTE_ON with a reserved WAVE, NOTE_OFF and the reserved command codes
(spec/41_voice_commands.md). -/

namespace Sys2Proof.Machine

open Sys2Proof

/-- NOP: a response of all zeros, nothing read or written (R131). -/
def execNop (s : State) : Host.Outcome State Fault Refusal := .next (s.emit (responseWord false 0 0 0))

/-- NOTE_ON: load the lowest inactive slot of the channel, else slot 0; answer its index (R132, R133). -/
def execNoteOn (ch : BitVec 4) (note : BitVec 7) (wave : Waveform) (vol : BitVec 7) (inc : CycleFraction) (s : State) :
    Host.Outcome State Fault Refusal :=
  let c := chan s.cfg ch
  let j := alloc (s.row c)
  .next ((s.withRow c ((s.row c).set j (Voice.load note wave vol inc))).emit (responseWord false 2 j 0))

/-- NOTE_ON with WAVE 6 or 7: ignored, whatever its other fields hold (R132). -/
def execNoteOnRsvdWave (s : State) : Host.Outcome State Fault Refusal := .next (s.ignore 2)

/-- NOTE_OFF: release every active slot of the channel that holds the note; answer how many (R135). -/
def execNoteOff (ch : BitVec 4) (note : BitVec 7) (s : State) : Host.Outcome State Fault Refusal :=
  let c := chan s.cfg ch
  let released := (s.row c).map (fun v => if v.sounds note then v.release else v)
  .next ((s.withRow c released).emit (responseWord false 3 ((s.row c).countP (Voice.sounds note)) 0))

/-- A reserved command code 4 to 7: ignored (R137). -/
def execRsvdLow (op : BitVec 4) (s : State) : Host.Outcome State Fault Refusal := .next (s.ignore op)

/-- A reserved command code 8 to 15: ignored (R137). -/
def execRsvdHigh (op : BitVec 4) (s : State) : Host.Outcome State Fault Refusal := .next (s.ignore op)

end Sys2Proof.Machine
end

