-- ==== Sys2Proof/Machine/Dispatch.lean ====
section
/-! DEFINITION. One arm per constructor of Instr (spec/30_encoding.md R75). -/

namespace Sys2Proof.Machine

open Sys2Proof

def exec (i : Instr) (s : State) : Host.Outcome State Fault Refusal :=
  match i with
  | .nop => Sys2Proof.Machine.execNop s
  | .tick => Sys2Proof.Machine.execTick s
  | .noteOn ch note wave vol inc => Sys2Proof.Machine.execNoteOn ch note wave vol inc s
  | .noteOnRsvdWave _ _ _ _ _ => Sys2Proof.Machine.execNoteOnRsvdWave s
  | .noteOff ch note => Sys2Proof.Machine.execNoteOff ch note s
  | .rsvdLow op => Sys2Proof.Machine.execRsvdLow op s
  | .rsvdHigh op => Sys2Proof.Machine.execRsvdHigh op s

end Sys2Proof.Machine
end

