-- ==== Sys2Proof/Machine/Step.lean ====
section
/-! DEFINITION. One step of the machine: an asserted reset first (spec/70_reset_and_hazards.md R231), else one accepted command
(spec/60_exceptions.md R207), else nothing (R210). -/

namespace Sys2Proof.Machine

open Sys2Proof

/-- One step. Reset takes precedence over any command (R231); a command is accepted, decoded and executed whole (R52, R53);
with no reset and no command the block holds its state (R210, log 6). -/
def step (s : State) : Host.Outcome State Fault Refusal :=
  match s.resetLine with
  | some timing => .next (s.applyReset timing)
  | none =>
    match s.accept with
    | none => .next s
    | some (w, t) => exec (decode w) t

/-- The state with the command word `w` standing where the next step takes its command: ahead of all that the agent has
issued whose command the next step takes, with no reset asserted (log 8). -/
def State.withCommand (s : State) (w : CommandWord) : State :=
  match s.clockStream, s.eventStream with
  | [], _ => { s with eventStream := w :: s.eventStream, resetLine := none }
  | _ :: _, [] => { s with clockStream := w :: s.clockStream, resetLine := none }
  | _ :: _, _ :: _ =>
    match Config.arbiter s.contentions with
    | .sampleClock => { s with clockStream := w :: s.clockStream, resetLine := none }
    | .eventController => { s with eventStream := w :: s.eventStream, resetLine := none }

/-- The instruction with the bits `w`, put where `step` takes its next command. -/
def State.withFetchWord (s : State) (nbits w : Nat) : State := s.withCommand (tableCommandWord nbits w)

end Sys2Proof.Machine
end

