-- ==== Sys2Proof/Machine/Assembler.lean ====
section
/-! DEFINITION. The assembler syntax of listings (spec/30_encoding.md R83) and the pseudo-instruction TICKS (R84): from a line
of text to a listing, and from a listing to command words. No command of the block is defined through it. -/

namespace Sys2Proof.Machine

open Sys2Proof

/-- One command of a listing, its operands the numbers written (R83, R84). -/
inductive Listing where
  | nop
  | tick
  | noteOn (ch note wave vol inc : Nat)
  | noteOff (ch note : Nat)
  /-- `.cmd`, the raw 64-bit word. -/
  | cmd (word : Nat)
  /-- The pseudo-instruction TICKS n (R84). -/
  | ticks (n : Nat)
  deriving DecidableEq, Repr

/-- The command words of a listing; none where an operand does not fit its field, which the assembler rejects (R83), or
where TICKS has n = 0 (R84). -/
def Listing.assemble : Listing → Option (List CommandWord)
  | .nop => some [packFields 0 0 0 0 0 0]
  | .tick => some [packFields 1 0 0 0 0 0]
  | .noteOn ch note wave vol inc =>
    if ch < 16 ∧ note < 128 ∧ wave < 8 ∧ vol < 128 ∧ inc < 2 ^ 32 then
      some [packFields 2 (BitVec.ofNat 4 ch) (BitVec.ofNat 7 note) (BitVec.ofNat 3 wave) (BitVec.ofNat 7 vol) (BitVec.ofNat 32 inc)]
    else none
  | .noteOff ch note =>
    if ch < 16 ∧ note < 128 then some [packFields 3 (BitVec.ofNat 4 ch) (BitVec.ofNat 7 note) 0 0 0] else none
  | .cmd word => if word < 2 ^ 64 then some [BitVec.ofNat 64 word] else none
  | .ticks n => if 1 ≤ n then some (List.replicate n (packFields 1 0 0 0 0 0)) else none

/-- The characters of a line before its comment, which a semicolon begins (R83). -/
def beforeComment (line : List Char) : List Char := line.takeWhile (fun c => c != ';')

/-- The tokens of a line: runs of other characters between blanks, and each comma (R83, log 18). `word` holds the token being
read, last character first. -/
def tokensFrom (word : List Char) : List Char → List (List Char)
  | [] => if word = [] then [] else [word.reverse]
  | c :: rest =>
    if c = ' ' ∨ c = '\t' then (if word = [] then tokensFrom [] rest else word.reverse :: tokensFrom [] rest)
    else if c = ',' then (if word = [] then [','] :: tokensFrom [] rest else word.reverse :: [','] :: tokensFrom [] rest)
    else tokensFrom (c :: word) rest

/-- The value of a digit in a base, none for a character that is no digit of it. -/
def digitValue (base : Nat) (c : Char) : Option Nat :=
  let value :=
    if '0' ≤ c ∧ c ≤ '9' then some (c.toNat - 48)
    else if 'A' ≤ c ∧ c ≤ 'F' then some (c.toNat - 55)
    else if 'a' ≤ c ∧ c ≤ 'f' then some (c.toNat - 87)
    else none
  value.filter (fun d => decide (d < base))

/-- The number a run of digits writes, starting from the value `acc` of the digits before it. -/
def digitsFrom (base acc : Nat) : List Char → Option Nat
  | [] => some acc
  | c :: rest =>
    match digitValue base c with
    | some d => digitsFrom base (acc * base + d) rest
    | none => none

/-- An operand: decimal, or hexadecimal after `0x` (R83). -/
def numberOf : List Char → Option Nat
  | [] => none
  | '0' :: 'x' :: digits => if digits = [] then none else digitsFrom 16 0 digits
  | digits => digitsFrom 10 0 digits

/-- The `wave` operand: a number, or one of the six names (R83). -/
def waveOperand (token : List Char) : Option Nat :=
  if token = "SQUARE".toList then some 0
  else if token = "PULSE25".toList then some 1
  else if token = "PULSE12_5".toList then some 2
  else if token = "TRIANGLE".toList then some 3
  else if token = "NOISE_LONG".toList then some 4
  else if token = "NOISE_SHORT".toList then some 5
  else numberOf token

/-- The numbers of a comma-separated operand list, its third operand read as a `wave` (R83). -/
def operandsFrom (position : Nat) : List (List Char) → Option (List Nat)
  | [] => none
  | [token] => ((if position = 2 then waveOperand else numberOf) token).map (fun n => [n])
  | token :: comma :: rest =>
    if comma = [','] then
      match (if position = 2 then waveOperand else numberOf) token, operandsFrom (position + 1) rest with
      | some n, some ns => some (n :: ns)
      | _, _ => none
    else none

/-- The listing a line's tokens write, none where they write none (R83, R84). -/
def listingOfTokens (mnemonic : List Char) (operands : List (List Char)) : Option Listing :=
  if mnemonic = "NOP".toList then (if operands = [] then some .nop else none)
  else if mnemonic = "TICK".toList then (if operands = [] then some .tick else none)
  else if mnemonic = "NOTE_ON".toList then
    match operandsFrom 0 operands with
    | some [ch, note, wave, vol, inc] => some (.noteOn ch note wave vol inc)
    | _ => none
  else if mnemonic = "NOTE_OFF".toList then
    match operandsFrom 0 operands with
    | some [ch, note] => some (.noteOff ch note)
    | _ => none
  else if mnemonic = ".cmd".toList then
    match operandsFrom 0 operands with
    | some [word] => some (.cmd word)
    | _ => none
  else if mnemonic = "TICKS".toList then
    match operandsFrom 0 operands with
    | some [n] => some (.ticks n)
    | _ => none
  else none

/-- The command words of one line of a listing: none of them for a blank line or a comment, and no answer for a line the
assembler rejects (R83). -/
def assembleLine (line : String) : Option (List CommandWord) :=
  match tokensFrom [] (beforeComment line.toList) with
  | [] => some []
  | mnemonic :: operands => (listingOfTokens mnemonic operands).bind Listing.assemble

/-- The command words of a listing, one command per line (R83). -/
def assembleLines : List String → Option (List CommandWord)
  | [] => some []
  | line :: rest =>
    match assembleLine line, assembleLines rest with
    | some ws, some more => some (ws ++ more)
    | _, _ => none

end Sys2Proof.Machine
end

