-- ==== Sys2Proof/WellFormed.lean ====
section
/-! DEFINITION. When a command is one the decoder can produce (spec/30_encoding.md R75, R76), and when the build parameters
are legal (spec/00_scope.md R6). -/

namespace Sys2Proof

/-- A command whose operands are in the ranges its opcode-table row gives: a reserved WAVE is 6 or 7, the first reserved row
has OP 4 to 7, the second OP 8 to 15. The other operands fill their fields (R71). -/
def Instr.wellFormed : Instr → Bool
  | .nop => true
  | .tick => true
  | .noteOn _ _ _ _ _ => true
  | .noteOnRsvdWave _ _ wave _ _ => decide (6 ≤ wave.toNat)
  | .noteOff _ _ => true
  | .rsvdLow op => decide (4 ≤ op.toNat) && decide (op.toNat ≤ 7)
  | .rsvdHigh op => decide (8 ≤ op.toNat)

/-- V is an integer 1 to 255 (R6); every value of the other parameters is legal. -/
def Config.legal (cfg : Config) : Bool :=
  decide (1 ≤ cfg.voicesPerChannel) && decide (cfg.voicesPerChannel ≤ 255)

end Sys2Proof
end

