-- ==== Sys2Proof/Safety.lean ====
section
/-! DEFINITION. What every reachable state satisfies (spec/10_state.md R22, R35) and what counts as a safe outcome
(spec/60_exceptions.md R200). -/

namespace Sys2Proof.Machine

open Sys2Proof

/-- The voice register file has the shape its parameters give: NCH rows of V slots (R22). -/
def State.shaped (s : State) : Bool :=
  decide (s.voices.length = numChannels s.cfg) && s.voices.all (fun row => decide (row.length = s.cfg.voicesPerChannel))

/-- No LFSR holds 0 (R35, R112). -/
def State.lfsrsNonzero (s : State) : Bool := s.voices.all (fun row => row.all (fun v => decide (v.lfsr ≠ 0)))

/-- The invariant of every reachable state: legal parameters (R6), the shape of the file (R22), LFSR not 0 (R35). The other
clauses of R35, WAVE in 0 to 5 and the ranges of PHASE and TICK, hold by the types. -/
def State.Inv (s : State) : Prop := s.cfg.legal = true ∧ s.shaped = true ∧ s.lfsrsNonzero = true

/-- A safe outcome: the machine goes on (R200). -/
def isNext : Host.Outcome State Fault Refusal → Bool
  | .next _ => true
  | .fault _ => false
  | .refused _ => false

end Sys2Proof.Machine
end

