-- ==== Sys2Proof/Certificates/Slice0/Obligations.lean ====
section
/-! DEFINITION. The statements for the provers, and under `Sys2Proof.Rules` the words of the spec's rules that they use. -/

namespace Sys2Proof.Rules

open Sys2Proof Sys2Proof.Machine

/-- The command port and the parameters are the same in `t` as in `s`: only the voice register file, TICK and the responses
may differ. -/
def PortUnchanged (s t : State) : Prop :=
  t.cfg = s.cfg ∧ t.clockStream = s.clockStream ∧ t.eventStream = s.eventStream ∧ t.contentions = s.contentions ∧
    t.resetLine = s.resetLine

/-- `chan(CH)` (R77). -/
def channelOf (cfg : Config) (ch : BitVec 4) : Nat := if cfg.poolMode = .flat then 0 else ch.toNat

/-- `v[c][j]`, and an inactive slot where the register file has none. -/
def slotAt (s : State) (c j : Nat) : Voice := (s.slot? c j).getD Voice.reset

/-- The slots of channel `c` with ACTIVE = 1. -/
def activeSlots (s : State) (c : Nat) : Finset Nat :=
  (Finset.range s.cfg.voicesPerChannel).filter (fun j => (slotAt s c j).active = true)

/-- Whether tick index `t` is an update tick of a noise kind; no other kind has one (R111, R161). -/
def IsUpdateTick (cfg : Config) (wave : Waveform) (t : Nat) : Prop :=
  (wave = .noiseLong ∧ t % (if cfg.noiseRates = .fast then 4 else 8) = 0) ∨
    (wave = .noiseShort ∧ t % (if cfg.noiseRates = .fast then 2 else 4) = 0)

open Classical in
/-- `L[c][j]` of R160 step 1, for a slot holding `v`. -/
noncomputable def updatedLfsr (cfg : Config) (t : BitVec 32) (v : Voice) : Lfsr :=
  if IsUpdateTick cfg v.wave t.toNat then (if v.wave = .noiseLong then lfsrStepLong v.lfsr else lfsrStepShort v.lfsr) else v.lfsr

/-- `x[c][j]` of R160 step 2, for a slot holding `v`: PHASE before its advance, LFSR after its update. -/
noncomputable def sampleOf (cfg : Config) (t : BitVec 32) (v : Voice) : Int := osc v.wave v.phase (updatedLfsr cfg t v)

/-- `S[c]` of R160 step 3. -/
noncomputable def sumOf (s : State) (c : Nat) : Int :=
  ∑ j ∈ activeSlots s c, sampleOf s.cfg s.tick (slotAt s c j) * ((slotAt s c j).vol.toNat : Int)

/-- `mix[c]` of R160 step 3; `Int.tdiv` truncates toward zero. -/
noncomputable def mixOf (s : State) (c : Nat) : Int :=
  if (activeSlots s c).card = 0 then 0 else Int.tdiv (sumOf s c) (127 * (activeSlots s c).card)

/-- `K` of R160 step 4: the channels of the block whose mix is not 0. -/
noncomputable def soundingChannels (s : State) : Finset Nat :=
  (Finset.range (if s.cfg.poolMode = .flat then 1 else 16)).filter (fun c => mixOf s c ≠ 0)

/-- `out` of R160 step 4. -/
noncomputable def outputOf (s : State) : Int :=
  if soundingChannels s = ∅ then 0 else Int.tdiv (∑ c ∈ soundingChannels s, mixOf s c) (soundingChannels s).card

/-- The slot after R160 step 5. -/
noncomputable def advanced (cfg : Config) (t : BitVec 32) (v : Voice) : Voice :=
  if v.active = true then
    { v with phase := BitVec.ofNat 32 ((v.phase.toNat + v.inc.toNat) % 2 ^ 32), lfsr := updatedLfsr cfg t v }
  else v

/-- The values a slot has after reset (R21, R230). -/
def resetSlot : Voice := { active := false, wave := .square, note := 0, vol := 0, inc := 0, phase := 0, lfsr := 0x0001 }

/-- `m` is a merge of `a` and `b` that keeps the order of each (R54). -/
inductive Interleaves : List CommandWord → List CommandWord → List CommandWord → Prop where
  | nil : Interleaves [] [] []
  | left {a b m : List CommandWord} (w : CommandWord) : Interleaves a b m → Interleaves (w :: a) b (w :: m)
  | right {a b m : List CommandWord} (w : CommandWord) : Interleaves a b m → Interleaves a (w :: b) (w :: m)

/-- The commands applied one after another, each to the state the one before left (R53). -/
def applyAll : List CommandWord → State → Host.Outcome State Fault Refusal
  | [], s => .next s
  | w :: ws, s =>
    match exec (decode w) s with
    | .next t => applyAll ws t
    | .fault r => .fault r
    | .refused r => .refused r

/-- The states a block built with `cfg` can come to: reset at power-up, steps, and what the host does between them. -/
inductive Reachable (cfg : Config) : State → Prop where
  | powerUp : Reachable cfg (State.resetWith cfg)
  | step {s t : State} : Reachable cfg s → Machine.step s = .next t → Reachable cfg t
  | present {s : State} (agent : Agent) (w : CommandWord) : Reachable cfg s → Reachable cfg (s.present agent w)
  | assertReset {s : State} (timing : ResetTiming) : Reachable cfg s → Reachable cfg (s.assertReset timing)

/-- Whether a command is a NOTE_ON that loads a slot. -/
def isNoteOn : Instr → Bool
  | .noteOn _ _ _ _ _ => true
  | .nop => false
  | .tick => false
  | .noteOnRsvdWave _ _ _ _ _ => false
  | .noteOff _ _ => false
  | .rsvdLow _ => false
  | .rsvdHigh _ => false

/-- Whether a command is a NOTE_OFF. -/
def isNoteOff : Instr → Bool
  | .noteOff _ _ => true
  | .nop => false
  | .tick => false
  | .noteOn _ _ _ _ _ => false
  | .noteOnRsvdWave _ _ _ _ _ => false
  | .rsvdLow _ => false
  | .rsvdHigh _ => false

end Sys2Proof.Rules

open Sys2Proof Sys2Proof.Machine Sys2Proof.Rules

/-! ### Encoding and decoding -/

/-- R75, R83: no bit of an encoding is dropped. -/
def Obligations.DecodeOfEncodeIsIdentity : Prop := ∀ i : Instr, i.wellFormed = true → decode (encode i) = i

/-- R70, R72, R73, R83: encoding what was decoded gives the word back with every other bit than its encoding's cleared: RSV,
and the fields the command does not use. A NOTE_ON with WAVE 6 or 7 keeps CH, NOTE, VOL and INC, which its meaning ignores
(R132): that its constructor carries them is the model's choice (log 16). -/
def Obligations.EncodeOfDecodeClearsIgnoredBits : Prop := ∀ w : CommandWord, encode (decode w) = w &&& (decode w).keptBits

/-- R76: every word is exactly one of the six kinds of command; OP decides first, WAVE only for OP = 2. -/
def Obligations.EveryWordIsExactlyOneCommand : Prop :=
  ∀ w : CommandWord,
    (decode w = .nop ↔ w.toNat / 2 ^ 60 = 0) ∧
    (decode w = .tick ↔ w.toNat / 2 ^ 60 = 1) ∧
    ((∃ ch note wave vol inc, decode w = .noteOn ch note wave vol inc) ↔
      w.toNat / 2 ^ 60 = 2 ∧ w.toNat / 2 ^ 46 % 8 ≤ 5) ∧
    ((∃ ch note wave vol inc, decode w = .noteOnRsvdWave ch note wave vol inc) ↔
      w.toNat / 2 ^ 60 = 2 ∧ 6 ≤ w.toNat / 2 ^ 46 % 8) ∧
    ((∃ ch note, decode w = .noteOff ch note) ↔ w.toNat / 2 ^ 60 = 3) ∧
    ((∃ op, decode w = .rsvdLow op ∨ decode w = .rsvdHigh op) ↔ 4 ≤ w.toNat / 2 ^ 60)

/-- R70, R71: the operands are the word's fields, read as unsigned numbers from their bits. -/
def Obligations.OperandsAreTheWordsFields : Prop :=
  ∀ w : CommandWord,
    (∀ ch note wave vol inc, decode w = .noteOn ch note wave vol inc →
      ch.toNat = w.toNat / 2 ^ 56 % 16 ∧ note.toNat = w.toNat / 2 ^ 49 % 128 ∧ wave.code.toNat = w.toNat / 2 ^ 46 % 8 ∧
        vol.toNat = w.toNat / 2 ^ 39 % 128 ∧ inc.toNat = w.toNat % 2 ^ 32) ∧
    (∀ ch note, decode w = .noteOff ch note →
      ch.toNat = w.toNat / 2 ^ 56 % 16 ∧ note.toNat = w.toNat / 2 ^ 49 % 128) ∧
    (∀ op, decode w = .rsvdLow op ∨ decode w = .rsvdHigh op → op.toNat = w.toNat / 2 ^ 60)

/-- R72, R73: two words that agree in OP and in the fields their command uses have the same effect and response. -/
def Obligations.UnusedFieldsHaveNoEffect : Prop :=
  ∀ (w w' : CommandWord) (s : State), opField w = opField w' →
    (opField w = 2 → chField w = chField w' ∧ noteField w = noteField w' ∧ waveField w = waveField w' ∧
      volField w = volField w' ∧ incField w = incField w') →
    (opField w = 3 → chField w = chField w' ∧ noteField w = noteField w') →
    exec (decode w) s = exec (decode w') s

/-- R85 and vector E-11 of spec/95_test_vectors.md (the last word; R75): words of the spec's encoding examples. -/
def Obligations.ExampleWordsDecode : Prop :=
  decode 0x0000000000000000 = .nop ∧ decode 0x1000000000000000 = .tick ∧
  decode 0x208A3F80028DDFB9 = .noteOn 0 69 .square 127 0x028DDFB9 ∧
  decode 0x308A000000000000 = .noteOff 0 69 ∧
  decode 0x2278FF8010000000 = .noteOn 2 60 .triangle 127 0x10000000 ∧
  decode 0x2003808000000001 = .noteOnRsvdWave 0 1 6 1 1 ∧
  decode 0x7000000000000000 = .rsvdLow 7 ∧ decode 0xF000000000000000 = .rsvdHigh 15

/-- opcode_table.json: a word matches the row of the command it decodes to, and no row of another command, but for the
NOTE_ON row, over which the row of the reserved WAVE takes precedence. -/
def Obligations.DecodingFollowsTheOpcodeTable : Prop :=
  ∀ w : CommandWord, w &&& (decode w).tableMask = (decode w).tableMatch ∧
    ∀ i : Instr, w &&& i.tableMask = i.tableMatch →
      (i.tableMask = (decode w).tableMask ∧ i.tableMatch = (decode w).tableMatch) ∨
      ((∃ ch note wave vol inc, decode w = .noteOnRsvdWave ch note wave vol inc) ∧ isNoteOn i = true)

/-- R83, R84: for each form of a listing, the words the assembler gives are those of the encoding formula, the raw word, or the
TICKs of TICKS n; an operand that does not fit, and TICKS 0, are rejected. -/
def Obligations.AssemblerFollowsTheEncodingFormula : Prop :=
  Listing.nop.assemble = some [0x0000000000000000] ∧ Listing.tick.assemble = some [0x1000000000000000] ∧
  (∀ ch note wave vol inc : Nat, ch < 16 → note < 128 → wave < 8 → vol < 128 → inc < 2 ^ 32 →
    ∃ w : CommandWord, (Listing.noteOn ch note wave vol inc).assemble = some [w] ∧
      w.toNat = 2 * 2 ^ 60 + ch * 2 ^ 56 + note * 2 ^ 49 + wave * 2 ^ 46 + vol * 2 ^ 39 + inc) ∧
  (∀ ch note wave vol inc : Nat, 16 ≤ ch ∨ 128 ≤ note ∨ 8 ≤ wave ∨ 128 ≤ vol ∨ 2 ^ 32 ≤ inc →
    (Listing.noteOn ch note wave vol inc).assemble = none) ∧
  (∀ ch note : Nat, ch < 16 → note < 128 →
    ∃ w : CommandWord, (Listing.noteOff ch note).assemble = some [w] ∧
      w.toNat = 3 * 2 ^ 60 + ch * 2 ^ 56 + note * 2 ^ 49) ∧
  (∀ ch note : Nat, 16 ≤ ch ∨ 128 ≤ note → (Listing.noteOff ch note).assemble = none) ∧
  (∀ word : Nat, word < 2 ^ 64 → ∃ w : CommandWord, (Listing.cmd word).assemble = some [w] ∧ w.toNat = word) ∧
  (∀ word : Nat, 2 ^ 64 ≤ word → (Listing.cmd word).assemble = none) ∧
  (∀ n : Nat, 1 ≤ n → (Listing.ticks n).assemble = some (List.replicate n 0x1000000000000000)) ∧
  (Listing.ticks 0).assemble = none

/-- R56, R57: a link carries the least significant byte first, of a command word's eight bytes and of a response word's four;
the words it carries come back in order, and a partial word at the end is no command. That a partial word is rejected by name,
and that a response's bytes have the order D28 gives for a byte-wide link, is log 13. -/
def Obligations.LinkCarriesWholeWordsLowByteFirst : Prop :=
  (∀ (w : CommandWord), (bytesOfCommand w).length = 8) ∧ (∀ (r : ResponseWord), (bytesOfResponse r).length = 4) ∧
  (∀ (w : CommandWord) (k : Nat), k < 8 → (bytesOfCommand w)[k]? = some (BitVec.ofNat 8 (w.toNat / 2 ^ (8 * k)))) ∧
  (∀ (r : ResponseWord) (k : Nat), k < 4 → (bytesOfResponse r)[k]? = some (BitVec.ofNat 8 (r.toNat / 2 ^ (8 * k)))) ∧
  (∀ (w : CommandWord) (rest : List Byte), decodeBytes (bytesOfCommand w ++ rest) = .ok (decode w, rest)) ∧
  (∀ bytes : List Byte, bytes.length < 8 → decodeBytes bytes = .error .partialWord) ∧
  (∀ (ws : List CommandWord) (part : List Byte), part.length < 8 →
    commandsOfBytes (ws.flatMap bytesOfCommand ++ part) = ws)

/-! ### Responses -/

/-- R80: the fields of the response word, the sample read back, and the delivery: the word joins what the host has received
and nothing else changes. -/
def Obligations.ResponseFieldsReadBack : Prop :=
  ∀ (ign : Bool) (op : BitVec 4) (slot : Nat) (sample : Int), slot ≤ 255 → -32767 ≤ sample → sample ≤ 32767 →
    (responseWord ign op slot sample).getLsbD 31 = ign ∧
    (responseWord ign op slot sample).extractLsb' 28 3 = 0 ∧
    (responseWord ign op slot sample).extractLsb' 24 4 = op ∧
    ((responseWord ign op slot sample).extractLsb' 16 8).toNat = slot ∧
    ((responseWord ign op slot sample).extractLsb' 0 16).toInt = sample ∧
    (((responseWord ign op slot sample).extractLsb' 0 16).toNat : Int) = sample % 2 ^ 16 ∧
    ∀ s : State, s.emit (responseWord ign op slot sample) =
      { s with responses := s.responses ++ [responseWord ign op slot sample] }

/-- R79, R201: every command delivers exactly one response, which echoes OP; IGN is set exactly for the ignored commands, and
an ignored command changes nothing else. -/
def Obligations.EveryCommandAnswersOnce : Prop :=
  ∀ (w : CommandWord) (s : State), ∃ t r, exec (decode w) s = .next t ∧ t.responses = s.responses ++ [r] ∧
    ResponseWord.opr r = opField w ∧ ResponseWord.reservedBits r = 0 ∧
    (ResponseWord.ign r = true ↔ 4 ≤ (opField w).toNat ∨ (opField w = 2 ∧ 6 ≤ (waveField w).toNat)) ∧
    (ResponseWord.ign r = true → t = s.emit r) ∧
    (opField w ≠ 1 → ResponseWord.sample r = 0) ∧
    (ResponseWord.ign r = true ∨ (opField w ≠ 2 ∧ opField w ≠ 3) → ResponseWord.slot r = 0)

/-! ### Oscillators and noise -/

/-- R101, R102, R103: the three thresholds are strict, and equal to the tests of the top bits. -/
def Obligations.SquareAndPulsesFollowTheirThresholds : Prop :=
  ∀ (p : CycleFraction) (x : Lfsr),
    osc .square p x = (if p.toNat < 2 ^ 31 then 32767 else -32767) ∧
    osc .square p x = (if p.extractLsb' 31 1 = 0 then 32767 else -32767) ∧
    osc .pulse25 p x = (if p.toNat < 2 ^ 30 then 32767 else -32767) ∧
    osc .pulse25 p x = (if p.extractLsb' 30 2 = 0 then 32767 else -32767) ∧
    osc .pulse12_5 p x = (if p.toNat < 2 ^ 29 then 32767 else -32767) ∧
    osc .pulse12_5 p x = (if p.extractLsb' 29 3 = 0 then 32767 else -32767)

/-- R104, R105: the triangle is the exact floor of 30 P / 2^32 going up and of 30 (2^32 - P) / 2^32 coming down, scaled by
32767 / 15 with floor; its level is 15 at phase 0.5 only. -/
def Obligations.TriangleIsTheScaledExactFloor : Prop :=
  ∀ (p : CycleFraction) (x : Lfsr), ∃ level : Nat,
    (p.toNat < 2 ^ 31 → level * 2 ^ 32 ≤ 30 * p.toNat ∧ 30 * p.toNat < (level + 1) * 2 ^ 32) ∧
    (2 ^ 31 ≤ p.toNat → level * 2 ^ 32 ≤ 30 * (2 ^ 32 - p.toNat) ∧ 30 * (2 ^ 32 - p.toNat) < (level + 1) * 2 ^ 32) ∧
    (level = 15 ↔ p = 0x80000000) ∧ level ≤ 15 ∧
    0 ≤ osc .triangle p x ∧ osc .triangle p x * 15 ≤ level * 32767 ∧ (level : Int) * 32767 < (osc .triangle p x + 1) * 15 ∧
    [(0 : Int), 2184, 4368, 6553, 8737, 10922, 13106, 15291, 17475, 19660, 21844, 24029, 26213, 28398, 30582, 32767][level]? =
      some (osc .triangle p x)

/-- R107: never falling over the rising half, never rising over the falling half, and mirror-symmetric about phase 0.5. -/
def Obligations.TriangleIsMonotoneAndMirrored : Prop :=
  (∀ p q : CycleFraction, p.toNat ≤ q.toNat → q.toNat < 2 ^ 31 → triLevel p ≤ triLevel q) ∧
  (∀ p q : CycleFraction, p.toNat ≤ q.toNat → 2 ^ 31 ≤ p.toNat → triLevel q ≤ triLevel p) ∧
  (∀ p : CycleFraction, 0 < p.toNat → triLevel (-p) = triLevel p) ∧
  (∀ level < 15, ∃ p : CycleFraction, p.toNat < 2 ^ 31 ∧ triLevel p = level) ∧
  (∀ level ≤ 15, ∃ p : CycleFraction, 2 ^ 31 ≤ p.toNat ∧ triLevel p = level)

/-- R108, R115: a noise sample is high exactly when bit 0 is set; every oscillator sample lies in -32767 to 32767. -/
def Obligations.OscillatorSamplesAreBounded : Prop :=
  ∀ (wave : Waveform) (p : CycleFraction) (x : Lfsr),
    -32767 ≤ osc wave p x ∧ osc wave p x ≤ 32767 ∧
    (wave = .triangle → 0 ≤ osc wave p x) ∧ (wave ≠ .triangle → osc wave p x = 32767 ∨ osc wave p x = -32767) ∧
    (wave = .noiseLong ∨ wave = .noiseShort → (osc wave p x = 32767 ↔ x.toNat % 2 = 1))

/-- R109, R110: each step moves every bit down by one and puts the XOR of bit 0 and bit 1 (long) or bit 6 (short) at bit 14. -/
def Obligations.NoiseStepsShiftInTheFeedbackBit : Prop :=
  ∀ x : Lfsr,
    (∀ i < 14, (lfsrStepLong x).getLsbD i = x.getLsbD (i + 1) ∧ (lfsrStepShort x).getLsbD i = x.getLsbD (i + 1)) ∧
    (lfsrStepLong x).getLsbD 14 = (x.getLsbD 0 ^^ x.getLsbD 1) ∧
    (lfsrStepShort x).getLsbD 14 = (x.getLsbD 0 ^^ x.getLsbD 6)

/-- R112, R113: both steps permute the register values, and only 0 steps to 0. -/
def Obligations.NoiseStepsPermuteTheNonzeroValues : Prop :=
  (∀ x y : Lfsr, lfsrStepLong x = lfsrStepLong y → x = y) ∧ (∀ x y : Lfsr, lfsrStepShort x = lfsrStepShort y → x = y) ∧
  (∀ x : Lfsr, x ≠ 0 → lfsrStepLong x ≠ 0 ∧ lfsrStepShort x ≠ 0) ∧
  (∀ y : Lfsr, y ≠ 0 → (∃ x, x ≠ 0 ∧ lfsrStepLong x = y) ∧ ∃ x, x ≠ 0 ∧ lfsrStepShort x = y)

/-- R113: with the short taps every value returns after 93 steps, and the seed not before. -/
def Obligations.ShortNoiseRepeatsAfter93Steps : Prop :=
  (∀ x : Lfsr, lfsrStepShort^[93] x = x) ∧ (∀ k : Nat, 0 < k → k < 93 → lfsrStepShort^[k] (0x0001 : Lfsr) ≠ 0x0001)

/-- R113: with the long taps the seed returns after 32767 steps and not before, and every nonzero value lies on its cycle. -/
def Obligations.LongNoiseHasOneFullCycle : Prop :=
  lfsrStepLong^[32767] (0x0001 : Lfsr) = 0x0001 ∧
  (∀ k : Nat, 0 < k → k < 32767 → lfsrStepLong^[k] (0x0001 : Lfsr) ≠ 0x0001) ∧
  (∀ x : Lfsr, x ≠ 0 → ∃ k < 32767, lfsrStepLong^[k] (0x0001 : Lfsr) = x)

/-! ### TICK and the mixer -/

/-- R160, R166, R167 (and with them R161, R162, R165): TICK is the rule's pseudocode, on the register file of any parameters. -/
def Obligations.TickFollowsTheRulesPseudocode : Prop :=
  (∀ w : CommandWord, w.toNat / 2 ^ 60 = 1 → decode w = .tick) ∧
  ∀ s : State, s.shaped = true → ∃ t, exec .tick s = .next t ∧
    (∀ c j, t.slot? c j = (s.slot? c j).map (advanced s.cfg s.tick)) ∧
    t.tick.toNat = (s.tick.toNat + 1) % 2 ^ 32 ∧
    t.responses = s.responses ++ [responseWord false 1 0 (outputOf s)] ∧ PortUnchanged s t

/-- R163, R165, R171, R81: the products, sums and mixes stay in their ranges, so the output needs no clamping, is never
-32768, and is what the host reads back from the response. -/
def Obligations.MixerStaysInRange : Prop :=
  (∀ (cfg : Config) (t : BitVec 32) (v : Voice), (v.product cfg t).natAbs ≤ 4161409) ∧
  (∀ (cfg : Config) (t : BitVec 32) (row : List Voice),
    (channelSum cfg t row).natAbs ≤ 4161409 * activeCount row ∧ (channelMix cfg t row).natAbs ≤ 32767) ∧
  (∀ mixes : List Int, (∀ m ∈ mixes, m.natAbs ≤ 32767) → (finalMix mixes).natAbs ≤ 32767) ∧
  (∀ s : State, ∃ t r, exec .tick s = .next t ∧ t.responses = s.responses ++ [r] ∧
    ResponseWord.sample r = s.outputSample ∧ r.extractLsb' 0 16 ≠ 0x8000)

/-- R8, R163, R165: the division of the mixer truncates toward zero and is odd. -/
def Obligations.MixerDivisionTruncatesTowardZero : Prop :=
  ∀ (a : Int) (b : Nat), 0 < b →
    tdiv a b = Int.tdiv a b ∧ tdiv (-a) b = -tdiv a b ∧ (tdiv a b).natAbs * b ≤ a.natAbs ∧
      a.natAbs < ((tdiv a b).natAbs + 1) * b ∧ (0 ≤ a → 0 ≤ tdiv a b)

/-- R164, R166: the order in which the voices of a channel are summed does not matter (R164), nor does the order of the
channel mixes, of which R166 takes the set that is not 0. -/
def Obligations.SummationOrderDoesNotMatter : Prop :=
  (∀ (cfg : Config) (t : BitVec 32) (row row' : List Voice), row.Perm row' → channelMix cfg t row = channelMix cfg t row') ∧
  (∀ mixes mixes' : List Int, mixes.Perm mixes' → finalMix mixes = finalMix mixes')

/-- R170: in FLAT mode the output is the one channel's average, or 0 with no active voice. -/
def Obligations.FlatOutputIsTheChannelAverage : Prop :=
  ∀ s : State, s.cfg.poolMode = .flat → s.shaped = true →
    s.outputSample = channelMix s.cfg s.tick (s.row 0) ∧
    (activeCount (s.row 0) = 0 → s.outputSample = 0) ∧
    (activeCount (s.row 0) ≠ 0 →
      s.outputSample = tdiv (channelSum s.cfg s.tick (s.row 0)) (127 * activeCount (s.row 0)))

/-- R172: no active voice gives 0; equal voices in one sounding channel give tdiv (x * VOL, 127), which is x at full volume. -/
def Obligations.EqualVoicesMixToTheirCommonValue : Prop :=
  (∀ s : State, (∀ c j v, s.slot? c j = some v → v.active = false) → s.outputSample = 0) ∧
  (∀ (s : State) (c : Nat) (x : Int) (vol : BitVec 7),
    (∃ v ∈ s.row c, v.active = true) →
    (∀ v ∈ s.row c, v.active = true → v.sample s.cfg s.tick = x ∧ v.vol = vol) →
    (∀ c', c' ≠ c → ∀ v ∈ s.row c', v.active = false) →
    s.outputSample = tdiv (x * (vol.toNat : Int)) 127 ∧ (vol = 127 → s.outputSample = x))

/-- R173, R23: two register files that hold the same active slots give the same sample, whatever their inactive slots hold. -/
def Obligations.InactiveSlotsDoNotReachTheSample : Prop :=
  ∀ s s' : State, s.shaped = true → s'.shaped = true → s'.cfg = s.cfg → s'.tick = s.tick →
    (∀ c j v v', s.slot? c j = some v → s'.slot? c j = some v' → v'.active = v.active ∧ (v.active = true → v' = v)) →
    ∃ t t' r, exec .tick s = .next t ∧ exec .tick s' = .next t' ∧
      t.responses = s.responses ++ [r] ∧ t'.responses = s'.responses ++ [r]

/-- R174, R161: a noise voice's sample, and the register value it is read from, change on the update ticks of its own rate
only: a TICK that is none leaves both as the TICK before had them. -/
def Obligations.NoiseHoldsBetweenUpdateTicks : Prop :=
  ∀ (s t : State) (c j : Nat) (v v' : Voice), exec .tick s = .next t → s.slot? c j = some v → v.active = true →
    v.wave = .noiseLong ∨ v.wave = .noiseShort → t.slot? c j = some v' →
    ¬ IsUpdateTick t.cfg v.wave t.tick.toNat →
    v'.sample t.cfg t.tick = v.sample s.cfg s.tick ∧ v'.nextLfsr t.cfg t.tick = v.nextLfsr s.cfg s.tick ∧
      v'.nextLfsr t.cfg t.tick = v'.lfsr

/-- R168: the wrap of TICK keeps the update ticks evenly spaced: 0xFFFFFFFF is none, 0 is one for both kinds, and the
remainder by a rate counts on over the wrap. -/
def Obligations.TickWrapKeepsUpdateTicksSpaced : Prop :=
  ∀ (cfg : Config) (wave : Waveform),
    ¬ IsUpdateTick cfg wave 0xFFFFFFFF ∧ (isNoise wave = true → IsUpdateTick cfg wave 0) ∧
    ∀ t : BitVec 32, (t + 1).toNat % noiseRate cfg wave = (t.toNat % noiseRate cfg wave + 1) % noiseRate cfg wave

/-- R84, R31, R167, R79: n TICK commands issued by the Sample Clock alone give n responses, count TICK on by n and advance the
phase of every active voice by n times its INC, modulo 2^32. -/
def Obligations.TickStreamAdvancesEveryActivePhase : Prop :=
  ∀ (s : State), s.resetLine = none → s.eventStream = [] → (∀ w ∈ s.clockStream, opField w = 1) →
    ∃ t, Sys2Proof.core.run s.clockStream.length s = .next t ∧ t.clockStream = [] ∧ t.eventStream = [] ∧
      t.tick.toNat = (s.tick.toNat + s.clockStream.length) % 2 ^ 32 ∧
      t.responses.length = s.responses.length + s.clockStream.length ∧
      ∀ c j v, s.slot? c j = some v → ∃ v', t.slot? c j = some v' ∧ v'.active = v.active ∧
        v'.phase.toNat =
          (if v.active = true then (v.phase.toNat + s.clockStream.length * v.inc.toNat) % 2 ^ 32 else v.phase.toNat)

/-! ### Voice commands -/

/-- R131: NOP answers 0x00000000 and does nothing else, whatever bits 59:0 hold. -/
def Obligations.NopOnlyAnswersZero : Prop :=
  (∀ w : CommandWord, w.toNat / 2 ^ 60 = 0 → decode w = .nop) ∧
  ∀ s : State, exec .nop s = .next { s with responses := s.responses ++ [0x00000000] }

/-- R130, R132, R133: NOTE_ON loads every field of the lowest inactive slot of its channel, or of slot 0 when there is none,
and touches nothing else; the new voice is heard at phase 0 by the next TICK. With a reserved WAVE it is ignored. -/
def Obligations.NoteOnLoadsTheAllocatedSlot : Prop :=
  (∀ (s : State) (ch : BitVec 4) (note : BitVec 7) (wave : Waveform) (vol : BitVec 7) (inc : CycleFraction),
    s.cfg.legal = true → s.shaped = true → ∃ j t,
      j < s.cfg.voicesPerChannel ∧
      (((slotAt s (channelOf s.cfg ch) j).active = false ∧ ∀ i < j, (slotAt s (channelOf s.cfg ch) i).active = true) ∨
        (j = 0 ∧ ∀ i < s.cfg.voicesPerChannel, (slotAt s (channelOf s.cfg ch) i).active = true)) ∧
      exec (.noteOn ch note wave vol inc) s = .next t ∧
      (∀ c' j', t.slot? c' j' =
        if c' = channelOf s.cfg ch ∧ j' = j then
          some { active := true, wave := wave, note := note, vol := vol, inc := inc, phase := 0, lfsr := 0x0001 }
        else s.slot? c' j') ∧
      t.responses = s.responses ++ [responseWord false 2 j 0] ∧ t.tick = s.tick ∧ PortUnchanged s t ∧
      sampleOf t.cfg t.tick (slotAt t (channelOf s.cfg ch) j) =
        osc wave 0 (updatedLfsr t.cfg t.tick (slotAt t (channelOf s.cfg ch) j))) ∧
  (∀ (s : State) (ch : BitVec 4) (note : BitVec 7) (wave : BitVec 3) (vol : BitVec 7) (inc : CycleFraction),
    exec (.noteOnRsvdWave ch note wave vol inc) s = .next { s with responses := s.responses ++ [0x82000000] })

/-- R135: NOTE_OFF clears ACTIVE of every active slot of its channel that holds the note, answers how many, and touches
nothing else. -/
def Obligations.NoteOffReleasesEveryMatchingVoice : Prop :=
  ∀ (s : State) (ch : BitVec 4) (note : BitVec 7), s.shaped = true → ∃ t,
    exec (.noteOff ch note) s = .next t ∧
    (∀ c' j', t.slot? c' j' = (s.slot? c' j').map (fun v =>
      if c' = channelOf s.cfg ch ∧ v.active = true ∧ v.note = note then { v with active := false } else v)) ∧
    t.responses = s.responses ++
      [responseWord false 3 ((activeSlots s (channelOf s.cfg ch)).filter
        (fun j => (slotAt s (channelOf s.cfg ch) j).note = note)).card 0] ∧
    t.tick = s.tick ∧ PortUnchanged s t

/-- R137: a reserved command code is ignored: the response is 0x80000000 with the code in bits 27:24, and nothing changes; a
TICK after it answers and does what it would have without it. -/
def Obligations.ReservedCodesAreIgnored : Prop :=
  (∀ (op : BitVec 4) (s : State), (Instr.rsvdLow op).wellFormed = true →
    exec (.rsvdLow op) s = .next { s with responses := s.responses ++ [0x80000000 ||| (op.setWidth 32 <<< 24)] }) ∧
  (∀ (op : BitVec 4) (s : State), (Instr.rsvdHigh op).wellFormed = true →
    exec (.rsvdHigh op) s = .next { s with responses := s.responses ++ [0x80000000 ||| (op.setWidth 32 <<< 24)] }) ∧
  (∀ (w : CommandWord) (s : State), 4 ≤ w.toNat / 2 ^ 60 →
    exec (decode w) s =
      .next { s with responses := s.responses ++ [0x80000000 ||| BitVec.ofNat 32 (w.toNat / 2 ^ 60 * 2 ^ 24)] }) ∧
  (∀ (w : CommandWord) (s : State), 4 ≤ w.toNat / 2 ^ 60 →
    ∃ t u u' r, exec (decode w) s = .next t ∧ exec .tick t = .next u ∧ exec .tick s = .next u' ∧
      u.responses = t.responses ++ [r] ∧ u'.responses = s.responses ++ [r] ∧ u.voices = u'.voices ∧ u.tick = u'.tick)

/-- R77: the channel selected is 0 in FLAT mode and CH in MULTI mode, and there a NOTE_ON loads its slot and a NOTE_OFF leaves
no voice of its note; in FLAT mode CH has no effect; in MULTI mode every other channel is unchanged; every CH is a channel of
the block. -/
def Obligations.ChannelFieldSelectsTheChannel : Prop :=
  (∀ (cfg : Config) (ch : BitVec 4), chan cfg ch = if cfg.poolMode = .flat then 0 else ch.toNat) ∧
  (∀ (s : State) (ch : BitVec 4) (note : BitVec 7) (wave : Waveform) (vol : BitVec 7) (inc : CycleFraction),
    s.cfg.legal = true → s.shaped = true → ∃ t j v, exec (.noteOn ch note wave vol inc) s = .next t ∧
      t.slot? (channelOf s.cfg ch) j = some v ∧ v.active = true ∧ v.wave = wave ∧ v.note = note ∧ v.vol = vol ∧ v.inc = inc) ∧
  (∀ (s : State) (ch : BitVec 4) (note : BitVec 7), ∃ t, exec (.noteOff ch note) s = .next t ∧
    ∀ j v, t.slot? (channelOf s.cfg ch) j = some v → v.active = true → v.note ≠ note) ∧
  (∀ (s : State) (ch ch' : BitVec 4) (note : BitVec 7) (wave : Waveform) (vol : BitVec 7) (inc : CycleFraction),
    s.cfg.poolMode = .flat →
    exec (.noteOn ch note wave vol inc) s = exec (.noteOn ch' note wave vol inc) s ∧
    exec (.noteOff ch note) s = exec (.noteOff ch' note) s) ∧
  (∀ (s t : State) (ch : BitVec 4) (note : BitVec 7) (wave : Waveform) (vol : BitVec 7) (inc : CycleFraction),
    s.cfg.poolMode = .multi →
    exec (.noteOn ch note wave vol inc) s = .next t ∨ exec (.noteOff ch note) s = .next t →
    ∀ c', c' ≠ ch.toNat → t.row c' = s.row c') ∧
  (∀ (s : State) (ch : BitVec 4), s.shaped = true → channelOf s.cfg ch < s.voices.length)

/-- R21, R24, R31, R58: the frame of every command. Each field of a slot, and TICK, changes only by a command that the rules
name as its writer; the slots that exist, the port and the parameters change by none. -/
def Obligations.FieldsChangeOnlyByTheirWriters : Prop :=
  ∀ (i : Instr) (s t : State), exec i s = .next t →
    PortUnchanged s t ∧ (∃ r, t.responses = s.responses ++ [r]) ∧ (i ≠ .tick → t.tick = s.tick) ∧
    (∀ c j, (t.slot? c j).isSome = (s.slot? c j).isSome) ∧
    ∀ c j v v', s.slot? c j = some v → t.slot? c j = some v' →
      (isNoteOn i = false → v'.wave = v.wave ∧ v'.note = v.note ∧ v'.vol = v.vol ∧ v'.inc = v.inc) ∧
      (isNoteOn i = false → i ≠ .tick → v'.phase = v.phase ∧ v'.lfsr = v.lfsr) ∧
      (isNoteOn i = false → isNoteOff i = false → v'.active = v.active) ∧
      (isNoteOff i = true → v'.active = true → v' = v) ∧
      (isNoteOn i = true → v.active = true → v'.active = true) ∧
      (i = .tick → v.active = false → v' = v)

/-- R132, R58: the frame of NOTE_ON in every state: at most the slot its allocation takes changes. -/
def Obligations.NoteOnChangesAtMostTheAllocatedSlot : Prop :=
  ∀ (s t : State) (ch : BitVec 4) (note : BitVec 7) (wave : Waveform) (vol : BitVec 7) (inc : CycleFraction),
    exec (.noteOn ch note wave vol inc) s = .next t →
    ∀ c' j', ¬ (c' = chan s.cfg ch ∧ j' = alloc (s.row (chan s.cfg ch))) → t.slot? c' j' = s.slot? c' j'

/-- R134, R59: a second NOTE_ON of the same note into a channel with two free slots takes a further slot, and both hold it. -/
def Obligations.RetriggerTakesAFurtherSlot : Prop :=
  ∀ (s : State) (ch : BitVec 4) (note : BitVec 7) (wave : Waveform) (vol : BitVec 7) (inc : CycleFraction) (i k : Nat)
    (vi vk : Voice), i ≠ k → s.slot? (channelOf s.cfg ch) i = some vi → s.slot? (channelOf s.cfg ch) k = some vk →
    vi.active = false → vk.active = false →
    ∃ t u j j' v, exec (.noteOn ch note wave vol inc) s = .next t ∧ exec (.noteOn ch note wave vol inc) t = .next u ∧
      j ≠ j' ∧ u.slot? (channelOf s.cfg ch) j = some v ∧ u.slot? (channelOf s.cfg ch) j' = some v ∧
      v.active = true ∧ v.note = note ∧
      u.responses = s.responses ++ [responseWord false 2 j 0, responseWord false 2 j' 0]

/-- R59, R136: a second identical NOTE_OFF releases nothing. -/
def Obligations.NoteOffIsIdempotent : Prop :=
  ∀ (s t : State) (ch : BitVec 4) (note : BitVec 7), exec (.noteOff ch note) s = .next t →
    exec (.noteOff ch note) t = .next { t with responses := t.responses ++ [0x03000000] }

/-- R136: NOTE_ON then NOTE_OFF of the same channel and note, where no voice was active, leaves every slot inactive, and the
next TICK answers sample 0. -/
def Obligations.NoteOnThenNoteOffIsSilent : Prop :=
  ∀ (s : State) (ch : BitVec 4) (note : BitVec 7) (wave : Waveform) (vol : BitVec 7) (inc : CycleFraction),
    (∀ c j v, s.slot? c j = some v → v.active = false) →
    ∃ t u x, exec (.noteOn ch note wave vol inc) s = .next t ∧ exec (.noteOff ch note) t = .next u ∧
      exec .tick u = .next x ∧ (∀ c j v, u.slot? c j = some v → v.active = false) ∧
      x.responses = u.responses ++ [0x01000000]

/-- R31, R208: TICK counts the TICK commands, and no other command reads it: with another count every other command does the
same. -/
def Obligations.OnlyTickReadsAndWritesTheCounter : Prop :=
  (∀ s : State, ∃ t, exec .tick s = .next t ∧ t.tick.toNat = (s.tick.toNat + 1) % 2 ^ 32) ∧
  ∀ (i : Instr) (s : State) (n : BitVec 32), i ≠ .tick →
    ∃ t, exec i s = .next t ∧ t.tick = s.tick ∧ exec i { s with tick := n } = .next { t with tick := n }

/-- R20, R34: nothing but the parameters, the register file and TICK reaches them or a response: two states that agree in
those answer the same and agree in them afterwards. -/
def Obligations.PortDoesNotReachTheVoices : Prop :=
  ∀ (i : Instr) (s s' : State), s'.cfg = s.cfg → s'.voices = s.voices → s'.tick = s.tick →
    ∃ t t' r, exec i s = .next t ∧ exec i s' = .next t' ∧ t'.voices = t.voices ∧ t'.tick = t.tick ∧ t'.cfg = t.cfg ∧
      t.responses = s.responses ++ [r] ∧ t'.responses = s'.responses ++ [r]

/-! ### Steps, reset and runs -/

/-- R53, R207: with no reset asserted the step is the decoded command's execution, on the state with the command taken from
its agent's stream; where both agents have one, the free value says whose (log 4). -/
def Obligations.StepRunsTheDecodedCommand : Prop :=
  (∀ (s : State) (w : CommandWord) (rest : List CommandWord), s.resetLine = none →
    s.clockStream = w :: rest → s.eventStream = [] → step s = exec (decode w) { s with clockStream := rest }) ∧
  (∀ (s : State) (w : CommandWord) (rest : List CommandWord), s.resetLine = none →
    s.eventStream = w :: rest → s.clockStream = [] → step s = exec (decode w) { s with eventStream := rest }) ∧
  (∀ (s : State) (wc we : CommandWord) (restc reste : List CommandWord), s.resetLine = none →
    s.clockStream = wc :: restc → s.eventStream = we :: reste →
    step s =
      if Config.arbiter s.contentions = .sampleClock then
        exec (decode wc) { s with clockStream := restc, contentions := s.contentions + 1 }
      else exec (decode we) { s with eventStream := reste, contentions := s.contentions + 1 })

/-- R210: with no command issued and no reset asserted the block holds its whole state. That such a step is a next state is
log 6. -/
def Obligations.IdleBlockHoldsItsState : Prop :=
  ∀ s : State, s.resetLine = none → s.clockStream = [] → s.eventStream = [] → step s = .next s

/-- R54, R55: a step takes at most one command, from the head of one stream; it reorders, drops and duplicates none. -/
def Obligations.StepKeepsEachStreamsOrder : Prop :=
  ∀ s t : State, s.resetLine = none → step s = .next t →
    (s.clockStream = [] ∧ s.eventStream = [] ∧ t.responses = s.responses ∧ t.clockStream = [] ∧ t.eventStream = []) ∨
    (∃ w r, s.clockStream = w :: t.clockStream ∧ t.eventStream = s.eventStream ∧ t.responses = s.responses ++ [r] ∧
      ResponseWord.opr r = opField w) ∨
    (∃ w r, s.eventStream = w :: t.eventStream ∧ t.clockStream = s.clockStream ∧ t.responses = s.responses ++ [r] ∧
      ResponseWord.opr r = opField w)

/-- R230: reset, at power-up and when asserted, puts every slot to its reset values and TICK to 0, and produces no response.
That an asserted reset is the field `resetLine` is the model's choice (log 7). -/
def Obligations.ResetSetsEverySlotAndTheCounter : Prop :=
  (∀ (cfg : Config) (c j : Nat), (State.resetWith cfg).tick = 0 ∧ (State.resetWith cfg).responses = [] ∧
    (State.resetWith cfg).slot? c j =
      if c < (if cfg.poolMode = .flat then 1 else 16) ∧ j < cfg.voicesPerChannel then some resetSlot else none) ∧
  (∀ (s : State) (timing : ResetTiming), s.resetLine = some timing → ∃ t, step s = .next t ∧ t.tick = 0 ∧
    t.responses = s.responses ∧ t.cfg = s.cfg ∧
    ∀ c j, t.slot? c j =
      if c < (if s.cfg.poolMode = .flat then 1 else 16) ∧ j < s.cfg.voicesPerChannel then some resetSlot else none)

/-- R231: reset takes precedence over any command. Asserted between commands it leaves every waiting command to be accepted
after it; asserted during a command it drops that one, which has no effect and no response. That the request is gone after
the step, and that the host says which of the two it is, is the model's choice (log 7). -/
def Obligations.ResetTakesPrecedenceOverCommands : Prop :=
  (∀ s : State, s.resetLine = some .betweenCommands → ∃ t, step s = .next t ∧ t.resetLine = none ∧
    t.clockStream = s.clockStream ∧ t.eventStream = s.eventStream ∧ t.responses = s.responses) ∧
  (∀ s : State, s.resetLine = some .duringCommand → ∃ t, step s = .next t ∧ t.resetLine = none ∧
    t.responses = s.responses ∧
    ((s.clockStream = [] ∧ s.eventStream = [] ∧ t.clockStream = [] ∧ t.eventStream = []) ∨
      (∃ w, s.clockStream = w :: t.clockStream ∧ t.eventStream = s.eventStream) ∨
      (∃ w, s.eventStream = w :: t.eventStream ∧ t.clockStream = s.clockStream)))

/-- R232: after reset the first TICK answers sample 0 and counts TICK to 1, and no slot changes. -/
def Obligations.FirstTickAfterResetIsSilent : Prop :=
  ∀ cfg : Config, exec .tick (State.resetWith cfg) =
    .next { State.resetWith cfg with tick := 1, responses := [0x01000000] }

/-- R200: no step stops the block, from any state. -/
def Obligations.NoStepStopsTheBlock : Prop :=
  (∀ s : State, isNext (step s) = true) ∧ ∀ (i : Instr) (s : State), isNext (exec i s) = true

/-- R22, R35: a step keeps the shape of the register file, the legal parameters, and every LFSR nonzero. -/
def Obligations.StepKeepsTheInvariant : Prop := ∀ s t : State, s.Inv → step s = .next t → t.Inv

/-- R21, R22, R35: reset has the invariant, for every legal choice of the parameters and for the one of `State.reset` (log 2). -/
def Obligations.ResetHasTheInvariant : Prop :=
  (∀ cfg : Config, cfg.legal = true → (State.resetWith cfg).Inv) ∧ State.reset.Inv

/-- R22, R35, R6: every state a block of legal parameters can come to, by steps and by what the host does between them, has
the invariant and the parameters it was built with. -/
def Obligations.EveryReachableStateHasTheInvariant : Prop :=
  ∀ cfg : Config, cfg.legal = true → ∀ s : State, Reachable cfg s → s.Inv ∧ s.cfg = cfg

/-- R53, R54, R207: running until both streams are empty is applying, one after another from the start, the commands of some
interleaving of the two streams that keeps the order of each. -/
def Obligations.RunIsASerialInterleaving : Prop :=
  ∀ s : State, s.resetLine = none → ∃ order t u, Interleaves s.clockStream s.eventStream order ∧
    Sys2Proof.core.run order.length s = .next t ∧ t.clockStream = [] ∧ t.eventStream = [] ∧
    applyAll order s = .next u ∧ t.voices = u.voices ∧ t.tick = u.tick ∧ t.responses = u.responses

/-! ### Ill-formed terms -/

/-- Log 16, beside R137: the two constructors of the reserved codes echo whatever OP they carry, also one that no word decodes
to. That they do so for such an OP is the model's choice. -/
def Obligations.ReservedConstructorsEchoTheirCode : Prop :=
  ∀ (op : BitVec 4) (s : State),
    exec (.rsvdLow op) s = .next { s with responses := s.responses ++ [0x80000000 ||| (op.setWidth 32 <<< 24)] } ∧
    exec (.rsvdHigh op) s = .next { s with responses := s.responses ++ [0x80000000 ||| (op.setWidth 32 <<< 24)] }
end

