-- ==== Sys2Proof/Laws/Decode.lean ====
section
/-! SUPPORT. The fields of a packed word, the waveform codes, and which OP each command comes from. -/

namespace Sys2Proof

section packFields
variable (op ch : BitVec 4) (note : BitVec 7) (wave : BitVec 3) (vol : BitVec 7) (inc : CycleFraction)

/-- Each field of a packed word reads back as it was packed (R70, R71). -/
@[simp] theorem opField_packFields : opField (packFields op ch note wave vol inc) = op := by
  apply BitVec.eq_of_getLsbD_eq
  intro i hi
  simp only [opField, packFields, BitVec.getLsbD_extractLsb', BitVec.getLsbD_append]
  grind

@[simp] theorem chField_packFields : chField (packFields op ch note wave vol inc) = ch := by
  apply BitVec.eq_of_getLsbD_eq
  intro i hi
  simp only [chField, packFields, BitVec.getLsbD_extractLsb', BitVec.getLsbD_append]
  grind

@[simp] theorem noteField_packFields : noteField (packFields op ch note wave vol inc) = note := by
  apply BitVec.eq_of_getLsbD_eq
  intro i hi
  simp only [noteField, packFields, BitVec.getLsbD_extractLsb', BitVec.getLsbD_append]
  grind

@[simp] theorem waveField_packFields : waveField (packFields op ch note wave vol inc) = wave := by
  apply BitVec.eq_of_getLsbD_eq
  intro i hi
  simp only [waveField, packFields, BitVec.getLsbD_extractLsb', BitVec.getLsbD_append]
  grind

@[simp] theorem volField_packFields : volField (packFields op ch note wave vol inc) = vol := by
  apply BitVec.eq_of_getLsbD_eq
  intro i hi
  simp only [volField, packFields, BitVec.getLsbD_extractLsb', BitVec.getLsbD_append]
  grind

@[simp] theorem incField_packFields : incField (packFields op ch note wave vol inc) = inc := by
  apply BitVec.eq_of_getLsbD_eq
  intro i hi
  simp only [incField, packFields, BitVec.getLsbD_extractLsb', BitVec.getLsbD_append]
  grind

end packFields

/-- The code of a kind names that kind (R74). -/
@[simp] theorem Waveform.ofCode_code (kind : Waveform) : Waveform.ofCode kind.code = some kind := by cases kind <;> decide

/-- A code names a kind exactly when it is 0 to 5, and then it is that kind's code (R74). -/
theorem Waveform.ofCode_eq_some_iff (code : BitVec 3) (kind : Waveform) :
    Waveform.ofCode code = some kind ↔ code = kind.code := by
  revert code; cases kind <;> decide

theorem Waveform.ofCode_eq_none_iff (code : BitVec 3) : Waveform.ofCode code = none ↔ 6 ≤ code.toNat := by
  revert code; decide

theorem Waveform.code_le (kind : Waveform) : kind.code.toNat ≤ 5 := by cases kind <;> decide

section decodeByOp
variable (w : CommandWord)

/-- Which command a word is, case by case of its OP field (R75, R76). -/
theorem decode_of_op_0 (h : opField w = 0) : decode w = .nop := by simp [decode, h]

theorem decode_of_op_1 (h : opField w = 1) : decode w = .tick := by simp [decode, h]

theorem decode_of_op_2 (h : opField w = 2) {kind : Waveform} (hw : waveField w = kind.code) :
    decode w = .noteOn (chField w) (noteField w) kind (volField w) (incField w) := by
  simp [decode, h, hw]

theorem decode_of_op_2_reserved (h : opField w = 2) (hw : 6 ≤ (waveField w).toNat) :
    decode w = .noteOnRsvdWave (chField w) (noteField w) (waveField w) (volField w) (incField w) := by
  simp [decode, h, (Waveform.ofCode_eq_none_iff _).mpr hw]

theorem decode_of_op_3 (h : opField w = 3) : decode w = .noteOff (chField w) (noteField w) := by simp [decode, h]

theorem decode_of_op_low (h : 4 ≤ (opField w).toNat) (h' : (opField w).toNat ≤ 7) : decode w = .rsvdLow (opField w) := by
  have h0 : opField w ≠ 0 := fun e => by simp [e] at h
  have h1 : opField w ≠ 1 := fun e => by simp [e] at h
  have h2 : opField w ≠ 2 := fun e => by simp [e] at h
  have h3 : opField w ≠ 3 := fun e => by simp [e] at h
  rw [decode, if_neg h0, if_neg h1, if_neg h2, if_neg h3, if_pos h']

theorem decode_of_op_high (h : 8 ≤ (opField w).toNat) : decode w = .rsvdHigh (opField w) := by
  have h0 : opField w ≠ 0 := fun e => by simp [e] at h
  have h1 : opField w ≠ 1 := fun e => by simp [e] at h
  have h2 : opField w ≠ 2 := fun e => by simp [e] at h
  have h3 : opField w ≠ 3 := fun e => by simp [e] at h
  have h7 : ¬ (opField w).toNat ≤ 7 := by omega
  rw [decode, if_neg h0, if_neg h1, if_neg h2, if_neg h3, if_neg h7]

/-- The seven ways a word decodes. -/
theorem decode_cases :
    (opField w = 0 ∧ decode w = .nop) ∨ (opField w = 1 ∧ decode w = .tick) ∨
    (∃ kind : Waveform, opField w = 2 ∧ waveField w = kind.code ∧
      decode w = .noteOn (chField w) (noteField w) kind (volField w) (incField w)) ∨
    (opField w = 2 ∧ 6 ≤ (waveField w).toNat ∧
      decode w = .noteOnRsvdWave (chField w) (noteField w) (waveField w) (volField w) (incField w)) ∨
    (opField w = 3 ∧ decode w = .noteOff (chField w) (noteField w)) ∨
    (4 ≤ (opField w).toNat ∧ (opField w).toNat ≤ 7 ∧ decode w = .rsvdLow (opField w)) ∨
    (8 ≤ (opField w).toNat ∧ decode w = .rsvdHigh (opField w)) := by
  by_cases h0 : opField w = 0
  · exact .inl ⟨h0, decode_of_op_0 w h0⟩
  by_cases h1 : opField w = 1
  · exact .inr (.inl ⟨h1, decode_of_op_1 w h1⟩)
  by_cases h2 : opField w = 2
  · cases hk : Waveform.ofCode (waveField w) with
    | some kind =>
      have hw := (Waveform.ofCode_eq_some_iff _ _).mp hk
      exact .inr (.inr (.inl ⟨kind, h2, hw, decode_of_op_2 w h2 hw⟩))
    | none =>
      have hw := (Waveform.ofCode_eq_none_iff _).mp hk
      exact .inr (.inr (.inr (.inl ⟨h2, hw, decode_of_op_2_reserved w h2 hw⟩)))
  by_cases h3 : opField w = 3
  · exact .inr (.inr (.inr (.inr (.inl ⟨h3, decode_of_op_3 w h3⟩))))
  have h4 : 4 ≤ (opField w).toNat := by
    generalize opField w = op at *
    revert h0 h1 h2 h3; revert op; decide
  by_cases h7 : (opField w).toNat ≤ 7
  · exact .inr (.inr (.inr (.inr (.inr (.inl ⟨h4, h7, decode_of_op_low w h4 h7⟩)))))
  · exact .inr (.inr (.inr (.inr (.inr (.inr ⟨by omega, decode_of_op_high w (by omega)⟩)))))

end decodeByOp

/-- The decoder produces well-formed commands only. -/
theorem decode_wellFormed (w : CommandWord) : (decode w).wellFormed = true := by
  rcases decode_cases w with ⟨_, h⟩ | ⟨_, h⟩ | ⟨_, _, _, h⟩ | ⟨_, hw, h⟩ | ⟨_, h⟩ | ⟨h4, h7, h⟩ | ⟨h8, h⟩ <;>
    simp_all [Instr.wellFormed]

/-- The response echoes the OP field of the word (R79). -/
theorem opcode_decode (w : CommandWord) : (decode w).opcode = opField w := by
  rcases decode_cases w with ⟨ho, h⟩ | ⟨ho, h⟩ | ⟨_, ho, _, h⟩ | ⟨ho, _, h⟩ | ⟨ho, h⟩ | ⟨_, _, h⟩ | ⟨_, h⟩ <;>
    rw [h] <;> simp_all [Instr.opcode]

end Sys2Proof
end

