-- ==== Sys2Proof/Laws/State.lean ====
section
/-! SUPPORT. What each update of the state writes, one lemma per field per update. -/

namespace Sys2Proof.Machine

open Sys2Proof

section withRow
variable (s : State) (c : Nat) (row : List Voice)
@[simp] theorem State.withRow_cfg : (s.withRow c row).cfg = s.cfg := rfl
@[simp] theorem State.withRow_voices : (s.withRow c row).voices = s.voices.set c row := rfl
@[simp] theorem State.withRow_tick : (s.withRow c row).tick = s.tick := rfl
@[simp] theorem State.withRow_clockStream : (s.withRow c row).clockStream = s.clockStream := rfl
@[simp] theorem State.withRow_eventStream : (s.withRow c row).eventStream = s.eventStream := rfl
@[simp] theorem State.withRow_contentions : (s.withRow c row).contentions = s.contentions := rfl
@[simp] theorem State.withRow_resetLine : (s.withRow c row).resetLine = s.resetLine := rfl
@[simp] theorem State.withRow_responses : (s.withRow c row).responses = s.responses := rfl
end withRow

section withPoolAndTick
variable (s : State) (voices : List (List Voice)) (tick : BitVec 32)
@[simp] theorem State.withPoolAndTick_cfg : (s.withPoolAndTick voices tick).cfg = s.cfg := rfl
@[simp] theorem State.withPoolAndTick_voices : (s.withPoolAndTick voices tick).voices = voices := rfl
@[simp] theorem State.withPoolAndTick_tick : (s.withPoolAndTick voices tick).tick = tick := rfl
@[simp] theorem State.withPoolAndTick_clockStream : (s.withPoolAndTick voices tick).clockStream = s.clockStream := rfl
@[simp] theorem State.withPoolAndTick_eventStream : (s.withPoolAndTick voices tick).eventStream = s.eventStream := rfl
@[simp] theorem State.withPoolAndTick_contentions : (s.withPoolAndTick voices tick).contentions = s.contentions := rfl
@[simp] theorem State.withPoolAndTick_resetLine : (s.withPoolAndTick voices tick).resetLine = s.resetLine := rfl
@[simp] theorem State.withPoolAndTick_responses : (s.withPoolAndTick voices tick).responses = s.responses := rfl
end withPoolAndTick

section emit
variable (s : State) (r : ResponseWord)
@[simp] theorem State.emit_cfg : (s.emit r).cfg = s.cfg := rfl
@[simp] theorem State.emit_voices : (s.emit r).voices = s.voices := rfl
@[simp] theorem State.emit_tick : (s.emit r).tick = s.tick := rfl
@[simp] theorem State.emit_clockStream : (s.emit r).clockStream = s.clockStream := rfl
@[simp] theorem State.emit_eventStream : (s.emit r).eventStream = s.eventStream := rfl
@[simp] theorem State.emit_contentions : (s.emit r).contentions = s.contentions := rfl
@[simp] theorem State.emit_resetLine : (s.emit r).resetLine = s.resetLine := rfl
@[simp] theorem State.emit_responses : (s.emit r).responses = s.responses ++ [r] := rfl
@[simp] theorem State.emit_row (c : Nat) : (s.emit r).row c = s.row c := rfl
@[simp] theorem State.emit_slot? (c j : Nat) : (s.emit r).slot? c j = s.slot? c j := rfl
end emit

section ignore
variable (s : State) (op : BitVec 4)
@[simp] theorem State.ignore_cfg : (s.ignore op).cfg = s.cfg := rfl
@[simp] theorem State.ignore_voices : (s.ignore op).voices = s.voices := rfl
@[simp] theorem State.ignore_tick : (s.ignore op).tick = s.tick := rfl
@[simp] theorem State.ignore_clockStream : (s.ignore op).clockStream = s.clockStream := rfl
@[simp] theorem State.ignore_eventStream : (s.ignore op).eventStream = s.eventStream := rfl
@[simp] theorem State.ignore_contentions : (s.ignore op).contentions = s.contentions := rfl
@[simp] theorem State.ignore_resetLine : (s.ignore op).resetLine = s.resetLine := rfl
@[simp] theorem State.ignore_responses : (s.ignore op).responses = s.responses ++ [responseWord true op 0 0] := rfl
@[simp] theorem State.ignore_slot? (c j : Nat) : (s.ignore op).slot? c j = s.slot? c j := rfl
end ignore

section advance
variable (s : State)
@[simp] theorem State.advance_cfg : s.advance.cfg = s.cfg := rfl
@[simp] theorem State.advance_voices :
    s.advance.voices = s.voices.map (fun row => row.map (fun v => v.advance s.cfg s.tick)) := rfl
@[simp] theorem State.advance_tick : s.advance.tick = s.tick + 1 := rfl
@[simp] theorem State.advance_clockStream : s.advance.clockStream = s.clockStream := rfl
@[simp] theorem State.advance_eventStream : s.advance.eventStream = s.eventStream := rfl
@[simp] theorem State.advance_contentions : s.advance.contentions = s.contentions := rfl
@[simp] theorem State.advance_resetLine : s.advance.resetLine = s.resetLine := rfl
@[simp] theorem State.advance_responses : s.advance.responses = s.responses := rfl
end advance

section clear
variable (s : State)
@[simp] theorem State.clear_cfg : s.clear.cfg = s.cfg := rfl
@[simp] theorem State.clear_voices : s.clear.voices = resetPool s.cfg := rfl
@[simp] theorem State.clear_tick : s.clear.tick = 0 := rfl
@[simp] theorem State.clear_clockStream : s.clear.clockStream = s.clockStream := rfl
@[simp] theorem State.clear_eventStream : s.clear.eventStream = s.eventStream := rfl
@[simp] theorem State.clear_contentions : s.clear.contentions = s.contentions := rfl
@[simp] theorem State.clear_resetLine : s.clear.resetLine = s.resetLine := rfl
@[simp] theorem State.clear_responses : s.clear.responses = s.responses := rfl
end clear

section assertReset
variable (s : State) (timing : ResetTiming)
@[simp] theorem State.assertReset_cfg : (s.assertReset timing).cfg = s.cfg := rfl
@[simp] theorem State.assertReset_voices : (s.assertReset timing).voices = s.voices := rfl
@[simp] theorem State.assertReset_tick : (s.assertReset timing).tick = s.tick := rfl
@[simp] theorem State.assertReset_clockStream : (s.assertReset timing).clockStream = s.clockStream := rfl
@[simp] theorem State.assertReset_eventStream : (s.assertReset timing).eventStream = s.eventStream := rfl
@[simp] theorem State.assertReset_contentions : (s.assertReset timing).contentions = s.contentions := rfl
@[simp] theorem State.assertReset_resetLine : (s.assertReset timing).resetLine = some timing := rfl
@[simp] theorem State.assertReset_responses : (s.assertReset timing).responses = s.responses := rfl
end assertReset

section present
variable (s : State) (agent : Agent) (w : CommandWord)
@[simp] theorem State.present_cfg : (s.present agent w).cfg = s.cfg := by cases agent <;> rfl
@[simp] theorem State.present_voices : (s.present agent w).voices = s.voices := by cases agent <;> rfl
@[simp] theorem State.present_tick : (s.present agent w).tick = s.tick := by cases agent <;> rfl
@[simp] theorem State.present_clockStream :
    (s.present agent w).clockStream = if agent = .sampleClock then s.clockStream ++ [w] else s.clockStream := by
  cases agent <;> rfl
@[simp] theorem State.present_eventStream :
    (s.present agent w).eventStream = if agent = .eventController then s.eventStream ++ [w] else s.eventStream := by
  cases agent <;> rfl
@[simp] theorem State.present_contentions : (s.present agent w).contentions = s.contentions := by cases agent <;> rfl
@[simp] theorem State.present_resetLine : (s.present agent w).resetLine = s.resetLine := by cases agent <;> rfl
@[simp] theorem State.present_responses : (s.present agent w).responses = s.responses := by cases agent <;> rfl
end present

section resetWith
variable (cfg : Config)
@[simp] theorem State.resetWith_cfg : (State.resetWith cfg).cfg = cfg := rfl
@[simp] theorem State.resetWith_voices : (State.resetWith cfg).voices = resetPool cfg := rfl
@[simp] theorem State.resetWith_tick : (State.resetWith cfg).tick = 0 := rfl
@[simp] theorem State.resetWith_clockStream : (State.resetWith cfg).clockStream = [] := rfl
@[simp] theorem State.resetWith_eventStream : (State.resetWith cfg).eventStream = [] := rfl
@[simp] theorem State.resetWith_contentions : (State.resetWith cfg).contentions = 0 := rfl
@[simp] theorem State.resetWith_resetLine : (State.resetWith cfg).resetLine = none := rfl
@[simp] theorem State.resetWith_responses : (State.resetWith cfg).responses = [] := rfl
end resetWith

section voice
variable (v : Voice)
@[simp] theorem Voice.reset_active : Voice.reset.active = false := rfl
@[simp] theorem Voice.reset_lfsr : Voice.reset.lfsr = lfsrSeed := rfl
@[simp] theorem Voice.release_active : v.release.active = false := rfl
@[simp] theorem Voice.release_wave : v.release.wave = v.wave := rfl
@[simp] theorem Voice.release_note : v.release.note = v.note := rfl
@[simp] theorem Voice.release_vol : v.release.vol = v.vol := rfl
@[simp] theorem Voice.release_inc : v.release.inc = v.inc := rfl
@[simp] theorem Voice.release_phase : v.release.phase = v.phase := rfl
@[simp] theorem Voice.release_lfsr : v.release.lfsr = v.lfsr := rfl
end voice

section voiceAdvance
variable (cfg : Config) (t : BitVec 32) (v : Voice)
@[simp] theorem Voice.advance_active : (v.advance cfg t).active = v.active := by unfold Voice.advance; split <;> simp_all
@[simp] theorem Voice.advance_wave : (v.advance cfg t).wave = v.wave := by unfold Voice.advance; split <;> rfl
@[simp] theorem Voice.advance_note : (v.advance cfg t).note = v.note := by unfold Voice.advance; split <;> rfl
@[simp] theorem Voice.advance_vol : (v.advance cfg t).vol = v.vol := by unfold Voice.advance; split <;> rfl
@[simp] theorem Voice.advance_inc : (v.advance cfg t).inc = v.inc := by unfold Voice.advance; split <;> rfl
theorem Voice.advance_phase : (v.advance cfg t).phase = if v.active then v.phase + v.inc else v.phase := by
  unfold Voice.advance; split <;> rfl
theorem Voice.advance_lfsr : (v.advance cfg t).lfsr = if v.active then v.nextLfsr cfg t else v.lfsr := by
  unfold Voice.advance; split <;> rfl
theorem Voice.advance_of_inactive (h : v.active = false) : v.advance cfg t = v := by simp [Voice.advance, h]
end voiceAdvance

end Sys2Proof.Machine
end

