-- ==== Sys2Proof/Laws/Pool.lean ====
section
/-! SUPPORT. Rows and slots of the voice register file: what each write leaves in them, which slot an allocation takes, and
the invariant in terms of single slots. -/

namespace Sys2Proof.Machine

open Sys2Proof

theorem State.row_of_getElem? {s : State} {c : Nat} {row : List Voice} (h : s.voices[c]? = some row) : s.row c = row := by
  simp [State.row, h]

theorem State.row_of_none {s : State} {c : Nat} (h : s.voices[c]? = none) : s.row c = [] := by simp [State.row, h]

@[simp] theorem State.withPoolAndTick_row (s : State) (voices : List (List Voice)) (tick : BitVec 32) (c : Nat) :
    (s.withPoolAndTick voices tick).row c = voices[c]?.getD [] := rfl

/-- A row written to a channel the file has is what is read back; every other channel reads as before. -/
theorem State.withRow_row (s : State) (c c' : Nat) (row : List Voice) :
    (s.withRow c row).row c' = if c' = c ∧ c < s.voices.length then row else s.row c' := by
  by_cases h : c' = c
  · subst h
    by_cases hlt : c' < s.voices.length
    · simp [State.row, hlt]
    · simp [State.row, hlt]
  · have hne : c ≠ c' := fun e => h e.symm
    simp [State.row, h, List.getElem?_set_ne hne]

theorem State.withRow_row_same_length (s : State) (c c' : Nat) (row : List Voice) (h : row.length = (s.row c).length) :
    (s.withRow c row).row c' = if c' = c then row else s.row c' := by
  rw [State.withRow_row]
  by_cases hc : c' = c
  · subst hc
    by_cases hlt : c' < s.voices.length
    · simp [hlt]
    · have : s.row c' = [] := State.row_of_none (by simp; omega)
      simp [this] at h
      simp [hlt, h, this]
  · simp [hc]

/-- Advancing every slot advances the slots of each row. -/
@[simp] theorem State.advance_row (s : State) (c : Nat) :
    s.advance.row c = (s.row c).map (fun v => v.advance s.cfg s.tick) := by
  simp only [State.row, State.advance_voices, List.getElem?_map]
  cases s.voices[c]? <;> rfl

theorem State.advance_slot? (s : State) (c j : Nat) :
    s.advance.slot? c j = (s.slot? c j).map (fun v => v.advance s.cfg s.tick) := by
  simp [State.slot?]

/-- The slot an allocation takes lies in the row. -/
theorem alloc_lt {row : List Voice} (h : row ≠ []) : alloc row < row.length := by
  unfold alloc
  cases hf : row.findIdx? (fun v => !v.active) with
  | none => simpa [List.length_pos_iff] using h
  | some j =>
    obtain ⟨hj, _⟩ := List.findIdx?_eq_some_iff_getElem.mp hf
    simpa using hj

/-- Where some slot is inactive, the allocation takes an inactive slot with every lower slot active. -/
theorem alloc_of_inactive {row : List Voice} (h : ∃ v ∈ row, v.active = false) :
    ∃ v, row[alloc row]? = some v ∧ v.active = false ∧
      ∀ i < alloc row, ∀ u, row[i]? = some u → u.active = true := by
  unfold alloc
  cases hf : row.findIdx? (fun v => !v.active) with
  | none =>
    obtain ⟨v, hv, ha⟩ := h
    have := List.findIdx?_eq_none_iff.mp hf v hv
    simp [ha] at this
  | some j =>
    obtain ⟨hj, hp, hlow⟩ := List.findIdx?_eq_some_iff_getElem.mp hf
    refine ⟨row[j], by simp, by simpa using hp, ?_⟩
    intro i hi u hu
    obtain ⟨hlt, rfl⟩ := List.getElem?_eq_some_iff.mp hu
    simpa using hlow i hi

/-- Where every slot is active, the allocation takes slot 0 (R133). -/
theorem alloc_of_full {row : List Voice} (h : ∀ v ∈ row, v.active = true) : alloc row = 0 := by
  unfold alloc
  have : row.findIdx? (fun v => !v.active) = none := List.findIdx?_eq_none_iff.mpr (by simpa using h)
  simp [this]

/-- The channel a CH field selects is one the register file has (R51, R77). -/
theorem chan_lt (cfg : Config) (ch : BitVec 4) : chan cfg ch < numChannels cfg := by
  unfold chan numChannels
  cases cfg.poolMode
  · exact Nat.zero_lt_one
  · exact ch.isLt

theorem numChannels_pos (cfg : Config) : 0 < numChannels cfg := by
  unfold numChannels; cases cfg.poolMode <;> decide

/-- The shape of the register file, channel by channel (R22). -/
theorem State.shaped_iff (s : State) :
    s.shaped = true ↔
      s.voices.length = numChannels s.cfg ∧ ∀ row ∈ s.voices, row.length = s.cfg.voicesPerChannel := by
  simp [State.shaped]

theorem State.row_mem_of_lt {s : State} {c : Nat} (h : c < s.voices.length) : s.row c ∈ s.voices := by
  simp [State.row, h]

theorem State.row_length_of_shaped {s : State} (h : s.shaped = true) {c : Nat} (hc : c < numChannels s.cfg) :
    (s.row c).length = s.cfg.voicesPerChannel := by
  obtain ⟨hlen, hrows⟩ := s.shaped_iff.mp h
  exact hrows _ (State.row_mem_of_lt (by omega))

theorem State.row_eq_nil_of_shaped {s : State} (h : s.shaped = true) {c : Nat} (hc : ¬ c < numChannels s.cfg) :
    s.row c = [] := by
  obtain ⟨hlen, _⟩ := s.shaped_iff.mp h
  exact State.row_of_none (by simp; omega)

/-- A shaped register file has exactly the slots of its parameters (R22). -/
theorem State.slot?_isSome_of_shaped {s : State} (h : s.shaped = true) (c j : Nat) :
    (s.slot? c j).isSome = true ↔ c < numChannels s.cfg ∧ j < s.cfg.voicesPerChannel := by
  unfold State.slot?
  by_cases hc : c < numChannels s.cfg
  · simp [hc, State.row_length_of_shaped h hc]
  · simp [hc, State.row_eq_nil_of_shaped h hc]

theorem State.lfsrsNonzero_iff (s : State) :
    s.lfsrsNonzero = true ↔ ∀ row ∈ s.voices, ∀ v ∈ row, v.lfsr ≠ 0 := by
  simp [State.lfsrsNonzero]

theorem Config.legal_iff (cfg : Config) :
    cfg.legal = true ↔ 1 ≤ cfg.voicesPerChannel ∧ cfg.voicesPerChannel ≤ 255 := by
  simp [Config.legal]

/-- A row of a shaped file of legal parameters is not empty, so an allocation finds a slot in it (R133). -/
theorem State.row_ne_nil_of_shaped {s : State} (hl : s.cfg.legal = true) (h : s.shaped = true) {c : Nat}
    (hc : c < numChannels s.cfg) : s.row c ≠ [] := by
  have := State.row_length_of_shaped h hc
  have := (Config.legal_iff _).mp hl
  intro hnil
  simp [hnil] at *
  omega

/-- The register file at reset reads as the reset slot wherever it has a slot (R230). -/
theorem State.resetWith_slot? (cfg : Config) (c j : Nat) :
    (State.resetWith cfg).slot? c j =
      if c < numChannels cfg ∧ j < cfg.voicesPerChannel then some Voice.reset else none := by
  unfold State.slot? State.row
  by_cases hc : c < numChannels cfg
  · by_cases hj : j < cfg.voicesPerChannel <;> simp [resetPool, hc, hj]
  · simp [resetPool, hc]

end Sys2Proof.Machine
end

