-- ==== Sys2Proof/Laws/Exec.lean ====
section
/-! SUPPORT. What a command can do, said once: it answers a next state that differs from the state before in the voice
register file, the tick counter and one more response. -/

namespace Sys2Proof.Machine

open Sys2Proof

section meanings
variable (s : State)

/-- The next state of each command. -/
@[simp] theorem exec_nop : exec .nop s = .next (s.emit (responseWord false 0 0 0)) := rfl

@[simp] theorem exec_tick : exec .tick s = .next (s.advance.emit (responseWord false 1 0 s.outputSample)) := rfl

@[simp] theorem exec_noteOn (ch : BitVec 4) (note : BitVec 7) (wave : Waveform) (vol : BitVec 7) (inc : CycleFraction) :
    exec (.noteOn ch note wave vol inc) s =
      .next ((s.withRow (chan s.cfg ch)
        ((s.row (chan s.cfg ch)).set (alloc (s.row (chan s.cfg ch))) (Voice.load note wave vol inc))).emit
          (responseWord false 2 (alloc (s.row (chan s.cfg ch))) 0)) := rfl

@[simp] theorem exec_noteOnRsvdWave (ch : BitVec 4) (note : BitVec 7) (wave : BitVec 3) (vol : BitVec 7)
    (inc : CycleFraction) : exec (.noteOnRsvdWave ch note wave vol inc) s = .next (s.ignore 2) := rfl

@[simp] theorem exec_noteOff (ch : BitVec 4) (note : BitVec 7) :
    exec (.noteOff ch note) s =
      .next ((s.withRow (chan s.cfg ch)
        ((s.row (chan s.cfg ch)).map (fun v => if v.sounds note then v.release else v))).emit
          (responseWord false 3 ((s.row (chan s.cfg ch)).countP (Voice.sounds note)) 0)) := rfl

@[simp] theorem exec_rsvdLow (op : BitVec 4) : exec (.rsvdLow op) s = .next (s.ignore op) := rfl

@[simp] theorem exec_rsvdHigh (op : BitVec 4) : exec (.rsvdHigh op) s = .next (s.ignore op) := rfl

end meanings

/-- Every command answers a next state: the register file and the tick counter may change, one response is delivered, and
nothing else changes. -/
theorem exec_eq_next (i : Instr) (s : State) :
    ∃ voices tick r, exec i s = .next ((s.withPoolAndTick voices tick).emit r) := by
  cases i with
  | nop => exact ⟨s.voices, s.tick, _, rfl⟩
  | tick => exact ⟨_, _, _, rfl⟩
  | noteOn ch note wave vol inc => exact ⟨_, s.tick, _, rfl⟩
  | noteOnRsvdWave ch note wave vol inc => exact ⟨s.voices, s.tick, _, rfl⟩
  | noteOff ch note => exact ⟨_, s.tick, _, rfl⟩
  | rsvdLow op => exact ⟨s.voices, s.tick, _, rfl⟩
  | rsvdHigh op => exact ⟨s.voices, s.tick, _, rfl⟩

/-- The slots after NOTE_ON: the allocated one holds the loaded voice, every other is unchanged (R132). -/
theorem noteOn_slot? (s : State) (c : Nat) (v : Voice) (c' j' : Nat) :
    (s.withRow c ((s.row c).set (alloc (s.row c)) v)).slot? c' j' =
      if c' = c ∧ j' = alloc (s.row c) ∧ s.row c ≠ [] then some v else s.slot? c' j' := by
  unfold State.slot?
  rw [State.withRow_row_same_length _ _ _ _ (by simp)]
  by_cases hc : c' = c
  · subst hc
    by_cases hj : j' = alloc (s.row c')
    · by_cases hn : s.row c' = []
      · simp [hn]
      · have := alloc_lt hn
        simp [hj, hn, this]
    · have hne : alloc (s.row c') ≠ j' := fun e => hj e.symm
      simp [hj, List.getElem?_set_ne hne]
  · simp [hc]

/-- The slots after NOTE_OFF: those of the channel that sound the note are released, every other is unchanged (R135). -/
theorem noteOff_slot? (s : State) (c : Nat) (note : BitVec 7) (c' j' : Nat) :
    (s.withRow c ((s.row c).map (fun v => if v.sounds note then v.release else v))).slot? c' j' =
      (s.slot? c' j').map (fun v => if c' = c ∧ v.sounds note = true then v.release else v) := by
  unfold State.slot?
  rw [State.withRow_row_same_length _ _ _ _ (by simp)]
  by_cases hc : c' = c
  · subst hc
    simp
  · simp [hc]

end Sys2Proof.Machine
end

