-- ==== Sys2Proof/Laws/Oscillator.lean ====
section
/-! SUPPORT. The two levels of the pulse and noise outputs, the bound of the triangle's level, and the bits of the register
after a shift. -/

namespace Sys2Proof.Machine

open Sys2Proof

theorem natAbs_highOrLow (high : Bool) : (highOrLow high).natAbs = 32767 := by cases high <;> decide

theorem highOrLow_eq_iff (a b : Bool) : highOrLow a = highOrLow b ↔ a = b := by cases a <;> cases b <;> decide

/-- The level is at most 15 (R104). -/
theorem triLevel_le (p : CycleFraction) : triLevel p ≤ 15 := by
  unfold triLevel
  split
  · have : p.toNat < 2 ^ 31 := by simpa using (show p.toNat < (0x80000000 : CycleFraction).toNat from ‹_›)
    omega
  · have : 2 ^ 31 ≤ p.toNat := by
      have h : ¬ p.toNat < (0x80000000 : CycleFraction).toNat := ‹_›
      simpa using h
    omega

/-- The triangle lies in 0 to 32767 (R106). -/
theorem triangle_range (p : CycleFraction) : 0 ≤ triangle p ∧ triangle p ≤ 32767 := by
  have := triLevel_le p
  unfold triangle
  omega

/-- The register after a shift, bit by bit: each bit takes the one above it, bit 14 the feedback (R109, R110). -/
theorem getLsbD_lfsrShift (tap : Nat) (x : Lfsr) (i : Nat) (hi : i < 15) :
    (lfsrShift tap x).getLsbD i = if i = 14 then x.getLsbD 0 ^^ x.getLsbD tap else x.getLsbD (i + 1) := by
  unfold lfsrShift
  by_cases h : i = 14
  · subst h
    simp
  · have hlt : i < 14 := by omega
    simp [hlt, h, Nat.add_comm]

/-- The register NOTE_ON and reset load is not 0 (R112). -/
theorem lfsrSeed_ne_zero : lfsrSeed ≠ 0 := by decide

end Sys2Proof.Machine
end

