-- ==== Sys2Proof/Laws/Mixer.lean ====
section
/-! SUPPORT. The truncating division, and the channel and final mixes where nothing sounds. -/

namespace Sys2Proof.Machine

open Sys2Proof

/-- The size of a truncated quotient is the quotient of the sizes (R8). -/
theorem natAbs_tdiv (a : Int) (b : Nat) : (tdiv a b).natAbs = a.natAbs / b := by
  unfold tdiv
  rw [Int.natAbs_mul, Int.natAbs_natCast]
  by_cases h : a = 0
  · simp [h]
  · rw [Int.natAbs_sign_of_ne_zero h, one_mul]

@[simp] theorem tdiv_zero_left (b : Nat) : tdiv 0 b = 0 := by simp [tdiv]

@[simp] theorem tdiv_one (a : Int) : tdiv a 1 = a := by
  rw [tdiv, Nat.div_one, Int.sign_mul_natAbs]

/-- A channel with no active slot has mix 0 (R165). -/
theorem channelMix_of_silent {cfg : Config} {t : BitVec 32} {row : List Voice} (h : ∀ v ∈ row, v.active = false) :
    channelMix cfg t row = 0 := by
  have : row.filter (fun v => v.active) = [] := by simpa [List.filter_eq_nil_iff] using h
  simp [channelMix, activeCount, this]

/-- Where every channel mix is 0 the output is 0 (R166). -/
theorem finalMix_of_zero {mixes : List Int} (h : ∀ m ∈ mixes, m = 0) : finalMix mixes = 0 := by
  have : mixes.filter (fun m => decide (m ≠ 0)) = [] := by simpa [List.filter_eq_nil_iff] using h
  simp only [finalMix, this, if_true]

/-- With no active voice the output sample is 0 (R166). -/
theorem State.outputSample_of_silent {s : State} (h : ∀ row ∈ s.voices, ∀ v ∈ row, v.active = false) :
    s.outputSample = 0 := by
  apply finalMix_of_zero
  intro m hm
  obtain ⟨row, hrow, rfl⟩ := List.mem_map.mp hm
  exact channelMix_of_silent (h row hrow)

end Sys2Proof.Machine
end

