-- ==== Sys2Proof/Laws/PerInstr.lean ====
section
/-! SUPPORT. Facts about the commands as syntax, one lemma per constructor of Instr. -/

namespace Sys2Proof.Laws.OpcodeField

open Sys2Proof

/-- The word of a command holds the command's code in its OP field (R75, R83). -/
def Statement (i : Instr) : Prop := opField (encode i) = i.opcode

theorem nop : Statement .nop := by simp [Statement, encode, Instr.opcode]

theorem tick : Statement .tick := by simp [Statement, encode, Instr.opcode]

theorem noteOn (ch : BitVec 4) (note : BitVec 7) (wave : Waveform) (vol : BitVec 7) (inc : CycleFraction) :
    Statement (.noteOn ch note wave vol inc) := by simp [Statement, encode, Instr.opcode]

theorem noteOnRsvdWave (ch : BitVec 4) (note : BitVec 7) (wave : BitVec 3) (vol : BitVec 7) (inc : CycleFraction) :
    Statement (.noteOnRsvdWave ch note wave vol inc) := by simp [Statement, encode, Instr.opcode]

theorem noteOff (ch : BitVec 4) (note : BitVec 7) : Statement (.noteOff ch note) := by
  simp [Statement, encode, Instr.opcode]

theorem rsvdLow (op : BitVec 4) : Statement (.rsvdLow op) := by simp [Statement, encode, Instr.opcode]

theorem rsvdHigh (op : BitVec 4) : Statement (.rsvdHigh op) := by simp [Statement, encode, Instr.opcode]

end Sys2Proof.Laws.OpcodeField
end

