-- ==== Sys2Proof/Laws/Step.lean ====
section
/-! SUPPORT. What accepting a command and what one step can do, said once. -/

namespace Sys2Proof.Machine

open Sys2Proof

/-- What accepting a command takes: the head of one agent's stream; a contention is counted when both had one (R53, R54). -/
theorem accept_cases {s t : State} {w : CommandWord} (h : s.accept = some (w, t)) :
    (s.clockStream = w :: t.clockStream ∧
      t = { s with clockStream := t.clockStream, contentions := t.contentions }) ∨
    (s.eventStream = w :: t.eventStream ∧
      t = { s with eventStream := t.eventStream, contentions := t.contentions }) := by
  unfold State.accept at h
  split at h
  · cases h
  · rename_i hc he
    cases h
    exact .inl ⟨hc, rfl⟩
  · rename_i hc he
    cases h
    exact .inr ⟨he, rfl⟩
  · rename_i hc he
    split at h <;> cases h
    · exact .inl ⟨hc, rfl⟩
    · exact .inr ⟨he, rfl⟩

/-- No command is accepted exactly when no agent has issued one. -/
theorem accept_eq_none_iff (s : State) : s.accept = none ↔ s.clockStream = [] ∧ s.eventStream = [] := by
  unfold State.accept
  split
  · simp_all
  · simp_all
  · simp_all
  · split <;> simp_all

/-- Accepting a command touches neither the block nor what was delivered. -/
theorem accept_frame {s t : State} {w : CommandWord} (h : s.accept = some (w, t)) :
    t.cfg = s.cfg ∧ t.voices = s.voices ∧ t.tick = s.tick ∧ t.resetLine = s.resetLine ∧ t.responses = s.responses := by
  rcases accept_cases h with ⟨_, ht⟩ | ⟨_, ht⟩ <;> rw [ht] <;> exact ⟨rfl, rfl, rfl, rfl, rfl⟩

/-- Aborting a command touches neither the block nor what was delivered (R231). -/
theorem abort_frame (s : State) :
    s.abort.cfg = s.cfg ∧ s.abort.voices = s.voices ∧ s.abort.tick = s.tick ∧ s.abort.resetLine = s.resetLine ∧
      s.abort.responses = s.responses := by
  unfold State.abort
  cases h : s.accept with
  | none => exact ⟨rfl, rfl, rfl, rfl, rfl⟩
  | some p => obtain ⟨w, t⟩ := p; exact accept_frame h

/-- What an applied reset leaves in the block and of the responses (R230, R231). -/
theorem applyReset_frame (s : State) (timing : ResetTiming) :
    (s.applyReset timing).cfg = s.cfg ∧ (s.applyReset timing).voices = resetPool s.cfg ∧
      (s.applyReset timing).tick = 0 ∧ (s.applyReset timing).resetLine = none ∧
      (s.applyReset timing).responses = s.responses := by
  obtain ⟨h1, _, _, _, h5⟩ := abort_frame s
  cases timing
  · exact ⟨rfl, rfl, rfl, rfl, rfl⟩
  · refine ⟨h1, ?_, rfl, rfl, h5⟩
    show resetPool s.abort.cfg = _
    rw [h1]

/-- What one step can do: apply a reset, execute one accepted command, or hold the state. -/
theorem step_cases (s : State) :
    (∃ timing, s.resetLine = some timing ∧ step s = .next (s.applyReset timing)) ∨
    (s.resetLine = none ∧ s.accept = none ∧ step s = .next s) ∨
    (∃ w t, s.resetLine = none ∧ s.accept = some (w, t) ∧ step s = exec (decode w) t) := by
  unfold step
  cases hr : s.resetLine with
  | some timing => exact .inl ⟨timing, rfl, rfl⟩
  | none =>
    cases ha : s.accept with
    | none => exact .inr (.inl ⟨rfl, rfl, rfl⟩)
    | some p => obtain ⟨w, t⟩ := p; exact .inr (.inr ⟨w, t, rfl, rfl, rfl⟩)

/-- A command placed by `withCommand` is the one the next step accepts, and what is left is the state it was placed in, with
no reset asserted and one more contention if both agents had a command. -/
theorem accept_withCommand (s : State) (w : CommandWord) :
    ∃ n, (s.withCommand w).accept = some (w, { s with resetLine := none, contentions := n }) := by
  rcases s with ⟨cfg, voices, tick, clock, events, n, line, rs⟩
  rcases clock with _ | ⟨wc, restc⟩ <;> rcases events with _ | ⟨we, reste⟩
  · exact ⟨n, rfl⟩
  · exact ⟨n, rfl⟩
  · exact ⟨n, rfl⟩
  · refine ⟨n + 1, ?_⟩
    unfold State.withCommand
    cases h : Config.arbiter n <;> simp [State.accept, h]

theorem withCommand_resetLine (s : State) (w : CommandWord) : (s.withCommand w).resetLine = none := by
  unfold State.withCommand
  split
  · rfl
  · rfl
  · split <;> rfl

/-- The next step after `withCommand` executes exactly the placed command (log 8). -/
theorem step_withCommand (s : State) (w : CommandWord) :
    ∃ n, step (s.withCommand w) = exec (decode w) { s with resetLine := none, contentions := n } := by
  obtain ⟨n, h⟩ := accept_withCommand s w
  exact ⟨n, by simp [step, withCommand_resetLine, h]⟩

/-- A run of no steps is the state it starts from. -/
theorem core_run_zero (s : State) : Sys2Proof.core.run 0 s = .next s := rfl

/-- A run goes on from the state its first step answers. -/
theorem core_run_succ {s t : State} (k : Nat) (h : step s = .next t) :
    Sys2Proof.core.run (k + 1) s = Sys2Proof.core.run k t := by
  have hs : Sys2Proof.core.step s = .next t := h
  simp only [Host.Core.run, hs]

end Sys2Proof.Machine
end

