-- ==== Sys2Proof/Tests/Slice0.lean ====
section
/-! SUPPORT. Tests against the spec's own words and vectors (spec/30_encoding.md R85, spec/95_test_vectors.md), the checks of
WellFormed on ill-formed terms, and for each statement with hypotheses a state and operands that meet them. -/

namespace Sys2Proof.Tests

open Sys2Proof Sys2Proof.Machine Sys2Proof.Rules

/-! ### WellFormed refuses -/

theorem test_wellFormed_refuses_playable_wave : (Instr.noteOnRsvdWave 0 1 5 1 1).wellFormed = false := by decide
theorem test_wellFormed_refuses_low_op_3 : (Instr.rsvdLow 3).wellFormed = false := by decide
theorem test_wellFormed_refuses_low_op_8 : (Instr.rsvdLow 8).wellFormed = false := by decide
theorem test_wellFormed_refuses_high_op_7 : (Instr.rsvdHigh 7).wellFormed = false := by decide
theorem test_legal_refuses_no_voice : (Config.mk .flat 0 .fast 0).legal = false := by decide
theorem test_legal_refuses_256_voices : (Config.mk .multi 256 .slow 0).legal = false := by decide
theorem test_wellFormed_accepts :
    (Instr.noteOnRsvdWave 0 1 6 1 1).wellFormed = true ∧ (Instr.noteOnRsvdWave 0 1 7 1 1).wellFormed = true ∧
    (Instr.rsvdLow 4).wellFormed = true ∧ (Instr.rsvdLow 7).wellFormed = true ∧ (Instr.rsvdHigh 8).wellFormed = true := by
  decide

/-! ### Decoding: words of R85 and of vectors E-1 to E-11, written out bit by bit from the layout of R70 -/

/-- E-1. -/
theorem test_decode_nop : decode 0x0000000000000000 = .nop := by decide
/-- E-3: bits 59:0 of a TICK are ignored. -/
theorem test_decode_tick : decode 0x1FFFFFFFFFFFFFFF = .tick := by decide
/-- E-4, as `oooo cccc nnnnnnn www vvvvvvv rrrrrrr` and INC. -/
theorem test_decode_noteOn :
    decode (0b0010000010001010001111111000000000000010100011011101111110111001 : BitVec 64) =
      .noteOn 0 69 .square 127 0x028DDFB9 := by decide
/-- E-5. -/
theorem test_decode_noteOn_triangle : decode 0x2278FF8010000000 = .noteOn 2 60 .triangle 127 0x10000000 := by decide
/-- E-8: RSV is ignored. -/
theorem test_decode_noteOn_rsv : decode 0x208A3FFF028DDFB9 = decode 0x208A3F80028DDFB9 := by decide
/-- P3: the two noise codes. -/
theorem test_decode_noise :
    decode 0x20513F8001000000 = .noteOn 0 40 .noiseLong 127 0x01000000 ∧
    decode 0x29537F8001000000 = .noteOn 9 41 .noiseShort 127 0x01000000 := by decide
/-- P4: the two pulse codes. -/
theorem test_decode_pulse :
    decode 0x2078720008000000 = .noteOn 0 60 .pulse25 100 0x08000000 ∧
    decode 0x2080B20008000000 = .noteOn 0 64 .pulse12_5 100 0x08000000 := by decide
/-- E-7. -/
theorem test_decode_noteOnRsvdWave : decode 0x2003808000000001 = .noteOnRsvdWave 0 1 6 1 1 := by decide
/-- E-9. -/
theorem test_decode_noteOff : decode 0x3278000000000000 = .noteOff 2 60 := by decide
/-- E-10. -/
theorem test_decode_rsvdLow : decode 0x4000000000000000 = .rsvdLow 4 := by decide
/-- E-11. -/
theorem test_decode_rsvdHigh : decode 0xF000000000000000 = .rsvdHigh 15 := by decide
/-- R85: the encoding examples. -/
theorem test_encode :
    encode (.noteOn 0 69 .square 127 0x028DDFB9) = 0x208A3F80028DDFB9 ∧ encode (.noteOff 0 69) = 0x308A000000000000 ∧
    encode (.noteOnRsvdWave 0 1 6 1 1) = 0x2003808000000001 ∧ encode (.rsvdLow 7) = 0x7000000000000000 := by decide
/-- R56: the first byte of a command on a link is its bits 7:0. -/
theorem test_bytes_low_first :
    bytesOfCommand 0x208A3F80028DDFB9 = [0xB9, 0xDF, 0x8D, 0x02, 0x80, 0x3F, 0x8A, 0x20] := by decide
/-- The opcode table's rows as the host numbers their bits. -/
theorem test_decodeTableWord :
    decodeTableWord 64 0x2001800000000000 = some (.noteOnRsvdWave 0 0 6 0 0) ∧
    decodeTableWord 64 0x8000000000000000 = some (.rsvdHigh 8) := by decide

/-! ### The assembler (R83, R84, R85) -/

theorem test_assemble_noteOn :
    assembleLine "NOTE_ON 2, 60, TRIANGLE, 127, 0x10000000 ; E-5" = some [0x2278FF8010000000] := by decide
theorem test_assemble_rejects : assembleLine "NOTE_OFF 16, 60" = none ∧ assembleLine "TICKS 0" = none := by decide
theorem test_assemble_lines :
    assembleLines ["TICKS 2", "; a comment", ".cmd 0x7000000000000000", "NOTE_ON 0, 1, 6, 1, 1"] =
      some [0x1000000000000000, 0x1000000000000000, 0x7000000000000000, 0x2003808000000001] := by decide

/-! ### Oscillators and noise (vectors 2.2 to 2.4) -/

theorem test_square_and_pulses :
    square 0x7FFFFFFF = 32767 ∧ square 0x80000000 = -32767 ∧ pulse25 0x3FFFFFFF = 32767 ∧ pulse25 0x40000000 = -32767 ∧
    pulse12_5 0x1FFFFFFF = 32767 ∧ pulse12_5 0x20000000 = -32767 := by decide
theorem test_triangle :
    triangle 0x08888888 = 0 ∧ triangle 0x08888889 = 2184 ∧ triangle 0x40000000 = 15291 ∧ triangle 0x7FFFFFFF = 30582 ∧
    triangle 0x80000000 = 32767 ∧ triangle 0x80000001 = 30582 ∧ triangle 0xF7777777 = 2184 ∧ triangle 0xF7777778 = 0 := by
  decide
theorem test_lfsr_long :
    lfsrStepLong 0x0001 = 0x4000 ∧ lfsrStepLong 0x0002 = 0x4001 ∧ lfsrStepLong 0x0003 = 0x0001 ∧
    lfsrStepLong 0x5555 = 0x6AAA ∧ lfsrStepLong 0x2AAA = 0x5555 := by decide
theorem test_lfsr_short :
    lfsrStepShort 0x0001 = 0x4000 ∧ lfsrStepShort 0x0003 = 0x4001 ∧ lfsrStepShort 0x0040 = 0x4020 ∧
    lfsrStepShort 0x0041 = 0x0020 ∧ lfsrStepShort 0x5555 = 0x2AAA := by decide
theorem test_noise_out : noiseOut 0x4001 = 32767 ∧ noiseOut 0x4000 = -32767 := by decide

/-! ### States for the tests -/

/-- An active voice. -/
def voice (wave : Waveform) (vol : BitVec 7) (phase : CycleFraction) : Voice :=
  { active := true, wave := wave, note := 60, vol := vol, inc := 0x08000000, phase := phase, lfsr := 0x0001 }

/-- The same voice, released. -/
def released (v : Voice) : Voice := { v with active := false }

/-- A FLAT block whose pool holds the given slots. -/
def flat (row : List Voice) : State :=
  { State.resetWith ⟨.flat, row.length, .fast, 0⟩ with voices := [row] }

/-- A MULTI block of `V` voices a channel, its first channels as given and the others at reset. -/
def multi (V : Nat) (rows : List (List Voice)) : State :=
  { State.resetWith ⟨.multi, V, .fast, 0⟩ with
    voices := rows ++ List.replicate (16 - rows.length) (List.replicate V Voice.reset) }

/-- The state of an outcome, if it is a next state. -/
def nextOf : Host.Outcome State Fault Refusal → Option State
  | .next s => some s
  | .fault _ => none
  | .refused _ => none

/-- The last response of an outcome. -/
def answer (o : Host.Outcome State Fault Refusal) : Option ResponseWord := (nextOf o).bind (fun s => s.responses.getLast?)

/-- A slot of an outcome. -/
def slotOf (o : Host.Outcome State Fault Refusal) (c j : Nat) : Option Voice := (nextOf o).bind (fun s => s.slot? c j)

/-- +32767 at full volume. -/
def high : Voice := voice .square 127 0

/-- -32767 at full volume. -/
def low : Voice := voice .square 127 0x80000000

/-! ### TICK and the mixer -/

/-- M-3, M-4, M-16: truncation toward zero, and a silent voice that counts. -/
theorem test_mix_flat :
    (flat [voice .square 64 0x80000000]).outputSample = -16512 ∧
    (flat [high, voice .square 0 0]).outputSample = 16383 ∧
    (flat [voice .square 64 0, voice .square 64 0]).outputSample = 16512 := by decide
/-- M-7, M-8, M-12, M-14: the average over the nonzero channel mixes. -/
theorem test_mix_multi :
    (multi 2 [[high, Voice.reset], [high, low]]).outputSample = 32767 ∧
    (multi 1 [[high], [voice .triangle 127 0x40000000]]).outputSample = 24029 ∧
    (multi 1 [[voice .square 1 0x80000000], [voice .triangle 1 0x08888889]]).outputSample = -120 ∧
    (multi 2 [[voice .triangle 127 0x08888889, voice .triangle 127 0], [voice .square 5 0x80000000, Voice.reset]]).outputSample
      = -99 := by decide
/-- PA-3 through TICK: the phase wraps; the response is that of M-3. -/
theorem test_tick_phase :
    (slotOf (exec .tick (flat [{ voice .square 64 0xF0000000 with inc := 0x20000000 }])) 0 0).map Voice.phase =
      some 0x10000000 ∧
    answer (exec .tick (flat [voice .square 64 0x80000000])) = some 0x0100BF80 := by decide
/-- N-3: at TICK 0xFFFFFFFF no noise update, the sample is high, TICK wraps to 0. -/
theorem test_tick_wrap :
    answer (exec .tick { flat [voice .noiseShort 127 0] with tick := 0xFFFFFFFF }) = some 0x01007FFF ∧
    (slotOf (exec .tick { flat [voice .noiseShort 127 0] with tick := 0xFFFFFFFF }) 0 0).map Voice.lfsr = some 0x0001 ∧
    answer (exec .tick (flat [voice .noiseShort 127 0])) = some 0x01008001 ∧
    (slotOf (exec .tick (flat [voice .noiseShort 127 0])) 0 0).map Voice.lfsr = some 0x4000 := by decide

/-! ### Voice commands (vectors 2.8) -/

/-- V-12. -/
theorem test_nop : nextOf (exec .nop (flat [high])) = some ((flat [high]).emit 0x00000000) := by decide
/-- V-9: the lowest inactive slot is allocated. -/
theorem test_noteOn_lowest_free :
    answer (exec (.noteOn 0 70 .triangle 90 5) (flat [high, Voice.reset, high])) = some 0x02010000 ∧
    slotOf (exec (.noteOn 0 70 .triangle 90 5) (flat [high, Voice.reset, high])) 0 1 =
      some ⟨true, .triangle, 70, 90, 5, 0, 0x0001⟩ := by decide
/-- V-3, V-6: a full channel loses slot 0, and the free slots of another channel are not used. -/
theorem test_noteOn_steals :
    slotOf (exec (.noteOn 0 67 .square 127 0x40000000) (multi 2 [[low, high]])) 0 0 =
      some ⟨true, .square, 67, 127, 0x40000000, 0, 0x0001⟩ ∧
    answer (exec (.noteOn 3 40 .square 127 1) (multi 2 [[low, high]])) = some 0x02000000 ∧
    slotOf (exec (.noteOn 3 40 .square 127 1) (multi 2 [[low, high]])) 0 0 = some low := by decide
/-- V-10. -/
theorem test_noteOnRsvdWave :
    nextOf (exec (decode 0x2003808000000001) (flat [Voice.reset])) = some ((flat [Voice.reset]).emit 0x82000000) := by decide
/-- V-5: both voices of the channel are released, their phases kept. -/
theorem test_noteOff_all :
    answer (exec (.noteOff 2 60) (multi 2 [[], [], [low, low]])) = some 0x03020000 ∧
    slotOf (exec (.noteOff 2 60) (multi 2 [[], [], [low, low]])) 2 1 = some (released low) := by decide
/-- V-7, V-14: CH is ignored in FLAT mode; an inactive slot is not matched. -/
theorem test_noteOff_flat :
    answer (exec (.noteOff 9 60) (flat [high, released low])) = some 0x03010000 ∧
    answer (exec (.noteOff 0 60) (flat [released high])) = some 0x03000000 := by decide
/-- V-11. -/
theorem test_rsvdLow :
    nextOf (exec (decode 0x7000000000000000) (flat [high])) = some ((flat [high]).emit 0x87000000) := by decide
/-- R137 for OP = 15. -/
theorem test_rsvdHigh :
    nextOf (exec (decode 0xF123456789ABCDEF) (flat [high])) = some ((flat [high]).emit 0x8F000000) := by decide

/-! ### Steps -/

/-- The first command of program P1, run as the first step after reset. -/
theorem test_first_step :
    answer (step (State.reset.withFetchWord 64 0x208A3F80028DDFB9)) = some 0x02000000 ∧
    slotOf (step (State.reset.withFetchWord 64 0x208A3F80028DDFB9)) 0 0 =
      some ⟨true, .square, 69, 127, 0x028DDFB9, 0, 0x0001⟩ := by decide
/-- R231: with reset asserted during it, a NOTE_ON has no effect and no response; between commands it waits. -/
theorem test_reset_aborts :
    nextOf (step ((State.reset.present .eventController 0x208A3F80028DDFB9).assertReset .duringCommand)) = some State.reset ∧
    nextOf (step ((State.reset.present .eventController 0x208A3F80028DDFB9).assertReset .betweenCommands)) =
      some (State.reset.present .eventController 0x208A3F80028DDFB9) := by decide
/-- R210. -/
theorem test_idle : nextOf (step (flat [high])) = some (flat [high]) := by decide

/-! ### Witnesses: each statement with hypotheses has a state and operands that meet them -/

theorem witness_DecodeOfEncodeIsIdentity :
    (Instr.noteOn 15 127 .noiseShort 127 0xFFFFFFFF).wellFormed = true ∧
    (Instr.noteOnRsvdWave 15 127 7 127 0xFFFFFFFF).wellFormed = true ∧ (Instr.rsvdLow 7).wellFormed = true ∧
    (Instr.rsvdHigh 15).wellFormed = true := by decide

theorem witness_OperandsAreTheWordsFields :
    decode 0x2FFF7FFFFFFFFFFF = .noteOn 15 127 .noiseShort 127 0xFFFFFFFF ∧ decode 0x3FFE000000000000 = .noteOff 15 127 ∧
    decode 0x4000000000000000 = .rsvdLow 4 ∧ decode 0x8000000000000000 = .rsvdHigh 8 := by decide

/-- Words that differ in an unused field, for TICK, NOTE_OFF and NOTE_ON. -/
theorem witness_UnusedFieldsHaveNoEffect :
    (opField 0x1000000000000000 = opField 0x1000000000000001 ∧ opField 0x1000000000000000 ≠ 2 ∧
      opField 0x1000000000000000 ≠ 3) ∧
    (opField 0x308A000000000000 = opField 0x308AFFFFFFFFFFFF ∧ chField 0x308A000000000000 = chField 0x308AFFFFFFFFFFFF ∧
      noteField 0x308A000000000000 ≠ noteField 0x308C000000000000) ∧
    (opField 0x208A3F80028DDFB9 = 2 ∧ opField 0x208A3F80028DDFB9 = opField 0x208A3FFF028DDFB9 ∧
      chField 0x208A3F80028DDFB9 = chField 0x208A3FFF028DDFB9 ∧ noteField 0x208A3F80028DDFB9 = noteField 0x208A3FFF028DDFB9 ∧
      waveField 0x208A3F80028DDFB9 = waveField 0x208A3FFF028DDFB9 ∧ volField 0x208A3F80028DDFB9 = volField 0x208A3FFF028DDFB9 ∧
      incField 0x208A3F80028DDFB9 = incField 0x208A3FFF028DDFB9) := by decide

/-- A NOTE_ON word matches the row of NOTE_ON; a reserved-WAVE word matches two rows. -/
theorem witness_DecodingFollowsTheOpcodeTable :
    (0x208A3F80028DDFB9 : CommandWord) &&& (Instr.noteOn 0 0 .square 0 0).tableMask = (Instr.noteOn 0 0 .square 0 0).tableMatch ∧
    (0x2003808000000001 : CommandWord) &&& (Instr.noteOn 0 0 .square 0 0).tableMask = (Instr.noteOn 0 0 .square 0 0).tableMatch ∧
    (0x2003808000000001 : CommandWord) &&& (Instr.noteOnRsvdWave 0 0 6 0 0).tableMask =
      (Instr.noteOnRsvdWave 0 0 6 0 0).tableMatch := by decide

/-- The largest operands that fit, and the smallest that do not. -/
theorem witness_AssemblerFollowsTheEncodingFormula :
    (Listing.noteOn 15 127 7 127 0xFFFFFFFF).assemble = some [0x2FFFFF80FFFFFFFF] ∧
    (Listing.noteOn 16 0 0 0 0).assemble = none ∧ (Listing.noteOn 0 128 0 0 0).assemble = none ∧
    (Listing.noteOn 0 0 8 0 0).assemble = none ∧ (Listing.noteOn 0 0 0 128 0).assemble = none ∧
    (Listing.noteOn 0 0 0 0 0x100000000).assemble = none ∧ (Listing.noteOff 15 127).assemble = some [0x3FFE000000000000] ∧
    (Listing.noteOff 16 0).assemble = none ∧ (Listing.noteOff 0 128).assemble = none ∧
    (Listing.ticks 1).assemble = some [0x1000000000000000] ∧
    (Listing.cmd 0xFFFFFFFFFFFFFFFF).assemble = some [0xFFFFFFFFFFFFFFFF] ∧
    (Listing.cmd 0x10000000000000000).assemble = none := by decide

theorem witness_LinkCarriesWholeWordsLowByteFirst :
    (bytesOfCommand 0x208A3F80028DDFB9)[7]? = some 0x20 ∧ (bytesOfResponse 0x8FFF8001)[0]? = some 0x01 ∧
    (bytesOfResponse 0x8FFF8001)[3]? = some 0x8F ∧ decodeBytes [1, 2, 3, 4, 5, 6, 7] = .error .partialWord ∧
    commandsOfBytes (bytesOfCommand 0x1000000000000000 ++ [1, 2, 3, 4, 5, 6, 7]) = [0x1000000000000000] := by decide

/-- The bounds of SLOT and SAMPLE. -/
theorem witness_ResponseFieldsReadBack :
    responseWord true 15 255 (-32767) = 0x8FFF8001 ∧ responseWord false 1 0 32767 = 0x01007FFF := by decide

/-- Commands that are and are not ignored, at the bounds of the reserved codes. -/
theorem witness_EveryCommandAnswersOnce :
    ResponseWord.ign 0x84000000 = true ∧ opField 0x4000000000000000 = 4 ∧ opField 0x3000000000000000 = 3 ∧
    waveField 0x2001800000000000 = 6 ∧ waveField 0x2001400000000000 = 5 := by decide

theorem witness_TriangleIsTheScaledExactFloor :
    (0x7FFFFFFF : CycleFraction).toNat < 2 ^ 31 ∧ 2 ^ 31 ≤ (0x80000000 : CycleFraction).toNat := by decide

theorem witness_TriangleIsMonotoneAndMirrored :
    ((0 : CycleFraction).toNat ≤ (0x7FFFFFFF : CycleFraction).toNat ∧ (0x7FFFFFFF : CycleFraction).toNat < 2 ^ 31) ∧
    ((0x80000000 : CycleFraction).toNat ≤ (0xFFFFFFFF : CycleFraction).toNat ∧ 2 ^ 31 ≤ (0x80000000 : CycleFraction).toNat) ∧
    0 < (0x00000001 : CycleFraction).toNat ∧ triLevel (-0x00000001) = triLevel 0x00000001 := by decide

/-- A noise kind, a pulse kind and the triangle. -/
theorem witness_OscillatorSamplesAreBounded :
    osc .noiseLong 0 0x0001 = 32767 ∧ (0x0001 : Lfsr).toNat % 2 = 1 ∧ osc .square 0x80000000 0 = -32767 ∧
    osc .triangle 0xFFFFFFFF 0 = 0 := by decide

theorem witness_NoiseStepsPermuteTheNonzeroValues :
    (0x0001 : Lfsr) ≠ 0 ∧ lfsrStepLong 0x0001 ≠ 0 ∧ lfsrStepShort 0x0001 ≠ 0 := by decide

theorem witness_ShortNoiseRepeatsAfter93Steps : lfsrStepShort^[15] (0x0001 : Lfsr) = 0x0201 := by decide

/-- The register is 0x4001 after 15 long steps (vector list 2.4): neither 0 nor the seed. -/
theorem witness_LongNoiseHasOneFullCycle : lfsrStepLong^[15] (0x0001 : Lfsr) = 0x4001 ∧ (0x4001 : Lfsr) ≠ 0 := by decide

/-- A TICK word, and a shaped state of each mode with active, inactive and noise slots. -/
theorem witness_TickFollowsTheRulesPseudocode :
    (0x1FFFFFFFFFFFFFFF : CommandWord).toNat / 2 ^ 60 = 1 ∧ (flat [high, released low, voice .noiseShort 3 7]).shaped = true ∧
    (multi 2 [[high, low], [voice .noiseLong 9 0, Voice.reset]]).shaped = true := by decide

theorem witness_MixerStaysInRange : ∀ m ∈ [(32767 : Int), -32767, 0], m.natAbs ≤ 32767 := by decide

theorem witness_MixerDivisionTruncatesTowardZero : tdiv (-2097088) 127 = -16512 ∧ 0 < 127 ∧ (0 : Int) ≤ 241 := by decide

theorem witness_SummationOrderDoesNotMatter :
    [high, low].Perm [low, high] ∧ [(258 : Int), -774].Perm [-774, 258] := by
  exact ⟨List.Perm.swap _ _ _, List.Perm.swap _ _ _⟩

/-- A FLAT state with an active slot, and one with none. -/
theorem witness_FlatOutputIsTheChannelAverage :
    (flat [high]).cfg.poolMode = .flat ∧ (flat [high]).shaped = true ∧ activeCount ((flat [high]).row 0) ≠ 0 ∧
    (flat [released high]).shaped = true ∧ activeCount ((flat [released high]).row 0) = 0 := by decide

/-- M-5: three equal voices in one channel; and a state with no active voice. -/
theorem witness_EqualVoicesMixToTheirCommonValue :
    (∃ v ∈ (flat [voice .square 100 0, voice .square 100 0, voice .square 100 0]).row 0, v.active = true) ∧
    (∀ v ∈ (flat [voice .square 100 0, voice .square 100 0, voice .square 100 0]).row 0, v.active = true →
      v.sample (flat [high]).cfg 0 = 32767 ∧ v.vol = 100) ∧
    (flat [voice .square 100 0, voice .square 100 0, voice .square 100 0]).outputSample = 25800 ∧
    (∀ c', c' ≠ 0 → ∀ v ∈ (flat [voice .square 100 0]).row c', v.active = false) ∧
    (∀ c j v, (flat [released high]).slot? c j = some v → v.active = false) := by
  refine ⟨by decide, by decide, by decide, ?_, ?_⟩
  · intro c' hc v hv
    obtain ⟨n, rfl⟩ := Nat.exists_eq_succ_of_ne_zero hc
    simp [flat, State.row] at hv
  · intro c j v h
    match c, j with
    | 0, 0 => cases h; rfl
    | 0, j + 1 => simp [flat, State.slot?, State.row] at h
    | c + 1, j => simp [flat, State.slot?, State.row] at h

/-- Two states that differ in what an inactive slot holds. -/
theorem witness_InactiveSlotsDoNotReachTheSample :
    (flat [high, released low]).shaped = true ∧ (flat [high, Voice.reset]).shaped = true ∧
    (flat [high, Voice.reset]).cfg = (flat [high, released low]).cfg ∧
    (flat [high, Voice.reset]).tick = (flat [high, released low]).tick ∧
    (∀ c j v v', (flat [high, released low]).slot? c j = some v → (flat [high, Voice.reset]).slot? c j = some v' →
      v'.active = v.active ∧ (v.active = true → v' = v)) := by
  refine ⟨by decide, by decide, rfl, rfl, ?_⟩
  intro c j v v' h h'
  match c, j with
  | 0, 0 => cases h; cases h'; exact ⟨rfl, fun _ => rfl⟩
  | 0, 1 => cases h; cases h'; exact ⟨rfl, fun h => by cases h⟩
  | 0, j + 2 => simp [flat, State.slot?, State.row] at h
  | c + 1, j => simp [flat, State.slot?, State.row] at h

/-- After the TICK of index 0 the next index, 1, is an update tick of neither kind. -/
theorem witness_NoiseHoldsBetweenUpdateTicks :
    ∃ t v', exec .tick (flat [voice .noiseShort 127 0]) = .next t ∧
      (flat [voice .noiseShort 127 0]).slot? 0 0 = some (voice .noiseShort 127 0) ∧ t.slot? 0 0 = some v' ∧
      ¬ IsUpdateTick t.cfg .noiseShort t.tick.toNat ∧ ¬ IsUpdateTick t.cfg .noiseLong t.tick.toNat := by
  refine ⟨_, _, rfl, rfl, rfl, ?_, ?_⟩ <;> unfold IsUpdateTick <;> decide

theorem witness_TickWrapKeepsUpdateTicksSpaced : isNoise .noiseLong = true ∧ isNoise .noiseShort = true := by decide

/-- The Sample Clock has issued two TICKs. -/
def ticking : State :=
  ((flat [high, released low]).present .sampleClock 0x1000000000000000).present .sampleClock 0x1FFFFFFFFFFFFFFF

theorem witness_TickStreamAdvancesEveryActivePhase :
    ticking.resetLine = none ∧ ticking.eventStream = [] ∧ ticking.clockStream = [0x1000000000000000, 0x1FFFFFFFFFFFFFFF] ∧
    (∀ w ∈ [(0x1000000000000000 : CommandWord), 0x1FFFFFFFFFFFFFFF], opField w = 1) ∧ ticking.slot? 0 0 = some high := by
  refine ⟨rfl, rfl, rfl, ?_, by decide⟩
  intro w hw
  rcases List.mem_pair.mp hw with rfl | rfl <;> decide

theorem witness_NopOnlyAnswersZero : (0x0FFFFFFFFFFFFFFF : CommandWord).toNat / 2 ^ 60 = 0 := by decide

/-- A channel with a free slot behind an active one, and a full one. -/
theorem witness_NoteOnLoadsTheAllocatedSlot :
    (multi 2 [[high, Voice.reset], [high, low]]).cfg.legal = true ∧ (multi 2 [[high, Voice.reset], [high, low]]).shaped = true ∧
    alloc ((multi 2 [[high, Voice.reset], [high, low]]).row 0) = 1 ∧
    alloc ((multi 2 [[high, Voice.reset], [high, low]]).row 1) = 0 := by decide

theorem witness_NoteOffReleasesEveryMatchingVoice : (multi 2 [[high, released low]]).shaped = true := by decide

/-- Both ends of both rows. -/
theorem witness_ReservedCodesAreIgnored :
    (Instr.rsvdLow 4).wellFormed = true ∧ (Instr.rsvdLow 7).wellFormed = true ∧ (Instr.rsvdHigh 8).wellFormed = true ∧
    (Instr.rsvdHigh 15).wellFormed = true ∧ 4 ≤ (0x4000000000000000 : CommandWord).toNat / 2 ^ 60 := by decide

/-- Both modes. -/
theorem witness_ChannelFieldSelectsTheChannel :
    (flat [high]).cfg.poolMode = .flat ∧ (flat [high]).cfg.legal = true ∧ (flat [high]).shaped = true ∧
    (multi 1 [[high]]).cfg.poolMode = .multi ∧ (multi 1 [[high]]).cfg.legal = true ∧ (multi 1 [[high]]).shaped = true ∧
    ((slotOf (exec (.noteOff 0 high.note) (multi 1 [[high]])) 0 0).map Voice.active = some false) ∧ isNext (exec (.noteOn 15 1 .square 1 1) (multi 1 [[high]])) = true ∧
    isNext (exec (.noteOff 15 1) (multi 1 [[high]])) = true := by decide

/-- Each kind of command answers a next state, from which a slot is read; a NOTE_OFF that leaves a slot sounding, and a NOTE_ON
over an active slot. -/
theorem witness_FieldsChangeOnlyByTheirWriters :
    (slotOf (exec .nop (flat [high])) 0 0 = some high) ∧ (slotOf (exec .tick (flat [released high])) 0 0 = some (released high)) ∧
    (slotOf (exec (.noteOff 0 61) (flat [high])) 0 0 = some high) ∧ isNoteOff (.noteOff 0 61) = true ∧
    ((slotOf (exec (.noteOn 0 1 .square 1 1) (flat [high])) 0 0).map Voice.active = some true) ∧
    isNoteOn (.noteOn 0 1 .square 1 1) = true ∧ isNoteOn (.rsvdLow 4) = false ∧ isNoteOff (.rsvdLow 4) = false := by decide

/-- A slot that a NOTE_ON does not take. -/
theorem witness_NoteOnChangesAtMostTheAllocatedSlot :
    slotOf (exec (.noteOn 0 1 .square 1 1) (flat [high, Voice.reset])) 0 0 = some high ∧
    alloc ((flat [high, Voice.reset]).row 0) ≠ 0 := by decide

/-- Two free slots. -/
theorem witness_RetriggerTakesAFurtherSlot :
    (flat [Voice.reset, high, released low]).slot? (channelOf (flat [Voice.reset, high, released low]).cfg 3) 0 = some Voice.reset ∧
    (flat [Voice.reset, high, released low]).slot? (channelOf (flat [Voice.reset, high, released low]).cfg 3) 2 =
      some (released low) ∧ Voice.reset.active = false ∧ (released low).active = false := by decide

theorem witness_NoteOffIsIdempotent : isNext (exec (.noteOff 0 60) (flat [high, high])) = true := by decide

/-- A block after reset holds no active slot. -/
theorem witness_NoteOnThenNoteOffIsSilent :
    ∀ c j v, (flat [Voice.reset]).slot? c j = some v → v.active = false := by
  intro c j v h
  match c, j with
  | 0, 0 => cases h; rfl
  | 0, j + 1 => simp [flat, State.slot?, State.row] at h
  | c + 1, j => simp [flat, State.slot?, State.row] at h

theorem witness_OnlyTickReadsAndWritesTheCounter : Instr.noteOn 0 1 .square 1 1 ≠ .tick ∧ Instr.nop ≠ .tick := by decide

/-- Two states that differ in what stands at the port. -/
theorem witness_PortDoesNotReachTheVoices :
    ((flat [high]).present .sampleClock 5).cfg = (flat [high]).cfg ∧
    ((flat [high]).present .sampleClock 5).voices = (flat [high]).voices ∧
    ((flat [high]).present .sampleClock 5).tick = (flat [high]).tick ∧ (flat [high]).present .sampleClock 5 ≠ flat [high] := by
  decide

/-- Each of the three cases: one agent's command, the other's, and both. -/
theorem witness_StepRunsTheDecodedCommand :
    ((flat [high]).present .sampleClock 5).resetLine = none ∧ ((flat [high]).present .sampleClock 5).clockStream = [5] ∧
    ((flat [high]).present .sampleClock 5).eventStream = [] ∧ ((flat [high]).present .eventController 5).eventStream = [5] ∧
    ((flat [high]).present .eventController 5).clockStream = [] ∧
    (((flat [high]).present .sampleClock 5).present .eventController 6).clockStream = [5] ∧
    (((flat [high]).present .sampleClock 5).present .eventController 6).eventStream = [6] ∧
    (((flat [high]).present .sampleClock 5).present .eventController 6).resetLine = none := by decide

theorem witness_IdleBlockHoldsItsState :
    (flat [high]).resetLine = none ∧ (flat [high]).clockStream = [] ∧ (flat [high]).eventStream = [] := by decide

theorem witness_StepKeepsEachStreamsOrder :
    ((flat [high]).present .sampleClock 5).resetLine = none ∧ isNext (step ((flat [high]).present .sampleClock 5)) = true := by
  decide

theorem witness_ResetSetsEverySlotAndTheCounter :
    ((flat [high]).assertReset .betweenCommands).resetLine = some .betweenCommands ∧
    ((flat [high]).assertReset .duringCommand).resetLine = some .duringCommand := by decide

theorem witness_ResetTakesPrecedenceOverCommands :
    (((flat [high]).present .sampleClock 5).assertReset .betweenCommands).resetLine = some .betweenCommands ∧
    (((flat [high]).present .sampleClock 5).assertReset .duringCommand).resetLine = some .duringCommand ∧
    (nextOf (step (((flat [high]).present .sampleClock 5).assertReset .duringCommand))).map State.clockStream = some [] := by
  decide

theorem witness_StepKeepsTheInvariant :
    (((flat [high, voice .noiseLong 1 1]).present .sampleClock 0x1000000000000000)).Inv ∧
    isNext (step ((flat [high, voice .noiseLong 1 1]).present .sampleClock 0x1000000000000000)) = true := by
  refine ⟨⟨by decide, by decide, by decide⟩, by decide⟩

theorem witness_ResetHasTheInvariant :
    (Config.mk .flat 1 .slow 0).legal = true ∧ (Config.mk .multi 255 .fast 9).legal = true := by decide

/-- A reachable state after a command was issued. -/
theorem witness_EveryReachableStateHasTheInvariant :
    (Config.mk .multi 2 .slow 0).legal = true ∧
    Reachable ⟨.multi, 2, .slow, 0⟩ ((State.resetWith ⟨.multi, 2, .slow, 0⟩).present .sampleClock 0x1000000000000000) :=
  ⟨by decide, .present _ _ .powerUp⟩

/-- Both agents have issued commands. -/
theorem witness_RunIsASerialInterleaving :
    (((flat [high]).present .sampleClock 5).present .eventController 6).resetLine = none ∧
    Interleaves [5] [6] [6, 5] := ⟨by decide, .right 6 (.left 5 .nil)⟩

end Sys2Proof.Tests
end

