-- ==== Sys2Proof/Proofs/MixerDivision.lean ====
section
/-! The mixer's division (R8): odd in the dividend, on naturals the quotient of `Nat`, and so the library's `Int.tdiv`. -/

namespace Sys2Proof.Machine

open Sys2Proof

@[simp] theorem tdiv_neg_left (a : Int) (b : Nat) : tdiv (-a) b = -tdiv a b := by
  rw [tdiv, tdiv, Int.sign_neg, Int.natAbs_neg, neg_mul]

@[simp] theorem tdiv_natCast (n b : Nat) : tdiv (n : Int) b = ((n / b : Nat) : Int) := by
  rcases n.eq_zero_or_pos with rfl | hn
  · simp
  · rw [tdiv, Int.sign_natCast_of_ne_zero hn.ne', one_mul, Int.natAbs_natCast]

/-- The model's division is the library's truncating one, at `b = 0` too. -/
theorem tdiv_eq_intTdiv (a : Int) (b : Nat) : tdiv a b = Int.tdiv a b := by
  obtain ⟨n, rfl | rfl⟩ := a.eq_nat_or_neg
  · rw [tdiv_natCast, Int.ofNat_tdiv]
  · rw [tdiv_neg_left, tdiv_natCast, Int.neg_tdiv, Int.ofNat_tdiv]

theorem tdiv_nonneg {a : Int} (h : 0 ≤ a) (b : Nat) : 0 ≤ tdiv a b := by
  rw [tdiv_eq_intTdiv]
  exact Int.tdiv_nonneg h b.cast_nonneg

/-- Settles O22: the bounds are those of the `Nat` quotient `|a| / b`, which is the size of `tdiv a b`. -/
theorem mixerDivisionTruncatesTowardZero : Obligations.MixerDivisionTruncatesTowardZero := by
  intro a b hb
  have hsize := natAbs_tdiv a b
  refine ⟨tdiv_eq_intTdiv a b, tdiv_neg_left a b, ?_, ?_, fun h => tdiv_nonneg h b⟩
  · rw [hsize]
    exact Nat.div_mul_le_self _ _
  · rw [hsize]
    exact Nat.lt_mul_of_div_lt (Nat.lt_succ_self _) hb

end Sys2Proof.Machine
end

