-- ==== Sys2Proof/Proofs/CommandFrame.lean ====
section
/-! What a command writes and what it reads. The writes of each command to one slot are said once, as the relation
`SlotWrite`; the frame of the commands (R21, R58) is read off it case by case. -/

namespace Sys2Proof.Machine

open Sys2Proof Sys2Proof.Rules

@[simp] theorem Voice.load_active (note : BitVec 7) (wave : Waveform) (vol : BitVec 7) (inc : CycleFraction) :
    (Voice.load note wave vol inc).active = true := rfl

@[simp] theorem Voice.load_lfsr (note : BitVec 7) (wave : Waveform) (vol : BitVec 7) (inc : CycleFraction) :
    (Voice.load note wave vol inc).lfsr = lfsrSeed := rfl

/-- `SlotWrite cfg tick i v v'`: the command `i` may leave `v'` in a slot that held `v`. TICK advances the slot, NOTE_ON may
load it, NOTE_OFF may release it, and every command but TICK may leave it as it is. -/
inductive SlotWrite (cfg : Config) (tick : BitVec 32) : Instr → Voice → Voice → Prop where
  | keep (i : Instr) (v : Voice) : i ≠ .tick → SlotWrite cfg tick i v v
  | advance (v : Voice) : SlotWrite cfg tick .tick v (v.advance cfg tick)
  | load (v : Voice) (ch : BitVec 4) (note : BitVec 7) (wave : Waveform) (vol : BitVec 7) (inc : CycleFraction) :
      SlotWrite cfg tick (.noteOn ch note wave vol inc) v (Voice.load note wave vol inc)
  | release (v : Voice) (ch : BitVec 4) (note : BitVec 7) : SlotWrite cfg tick (.noteOff ch note) v v.release

theorem optionRel_map_right {α : Type} {R : α → α → Prop} {f : α → α} (h : ∀ a, R a (f a)) (o : Option α) :
    Option.Rel R o (o.map f) := by
  cases o with
  | none => exact .none
  | some a => exact .some (h a)

theorem optionRel_self {α : Type} {R : α → α → Prop} (h : ∀ a, R a a) (o : Option α) : Option.Rel R o o := by
  simpa using optionRel_map_right (f := id) h o

theorem optionRel_isSome {α : Type} {R : α → α → Prop} {o o' : Option α} (h : Option.Rel R o o') :
    o'.isSome = o.isSome := by
  cases h <;> rfl

/-- The slots after NOTE_ON, without saying which one it takes. -/
theorem noteOn_slotWrite {s t : State} {ch : BitVec 4} {note : BitVec 7} {wave : Waveform} {vol : BitVec 7}
    {inc : CycleFraction} (h : exec (.noteOn ch note wave vol inc) s = .next t) (c j : Nat) :
    Option.Rel (SlotWrite s.cfg s.tick (.noteOn ch note wave vol inc)) (s.slot? c j) (t.slot? c j) := by
  cases h
  rw [State.emit_slot?, noteOn_slot?]
  split
  case isFalse => exact optionRel_self (fun v => .keep _ v nofun) _
  case isTrue hslot =>
    obtain ⟨rfl, rfl, hrow⟩ := hslot
    obtain ⟨v, hv⟩ : ∃ v, s.slot? (chan s.cfg ch) (alloc (s.row (chan s.cfg ch))) = some v :=
      ⟨_, List.getElem?_eq_getElem (alloc_lt hrow)⟩
    rw [hv]
    exact .some (.load v ..)

/-- The slots after NOTE_OFF, without saying which ones it releases. -/
theorem noteOff_slotWrite {s t : State} {ch : BitVec 4} {note : BitVec 7} (h : exec (.noteOff ch note) s = .next t)
    (c j : Nat) : Option.Rel (SlotWrite s.cfg s.tick (.noteOff ch note)) (s.slot? c j) (t.slot? c j) := by
  cases h
  rw [State.emit_slot?, noteOff_slot?]
  refine optionRel_map_right (fun v => ?_) _
  split
  · exact .release v ch note
  · exact .keep _ v nofun

/-- The register file after a command has the slots it had, each as `SlotWrite` says. -/
theorem exec_slotWrite {i : Instr} {s t : State} (h : exec i s = .next t) (c j : Nat) :
    Option.Rel (SlotWrite s.cfg s.tick i) (s.slot? c j) (t.slot? c j) := by
  cases i with
  | tick =>
    cases h
    rw [State.emit_slot?, State.advance_slot?]
    exact optionRel_map_right .advance _
  | noteOn ch note wave vol inc => exact noteOn_slotWrite h c j
  | noteOff ch note => exact noteOff_slotWrite h c j
  | nop | noteOnRsvdWave | rsvdLow | rsvdHigh =>
    cases h
    exact optionRel_self (fun v => .keep _ v nofun) _

theorem exec_slotWrite_of_some {i : Instr} {s t : State} (h : exec i s = .next t) {c j : Nat} {v' : Voice}
    (hv' : t.slot? c j = some v') : ∃ v, s.slot? c j = some v ∧ SlotWrite s.cfg s.tick i v v' := by
  have hrel := exec_slotWrite h c j
  rw [hv'] at hrel
  generalize s.slot? c j = before at hrel ⊢
  obtain ⟨hw⟩ := hrel
  exact ⟨_, rfl, hw⟩

/-- No command adds or removes a channel. -/
theorem exec_voices_length {i : Instr} {s t : State} (h : exec i s = .next t) : t.voices.length = s.voices.length := by
  cases i with
  | tick | noteOn | noteOff =>
    cases h
    simp
  | nop | noteOnRsvdWave | rsvdLow | rsvdHigh =>
    cases h
    rfl

/-- A command touches neither the parameters nor the port, and delivers one response. -/
theorem exec_port {i : Instr} {s t : State} (h : exec i s = .next t) :
    PortUnchanged s t ∧ ∃ r, t.responses = s.responses ++ [r] := by
  obtain ⟨voices, tick, r, hexec⟩ := exec_eq_next i s
  cases hexec.symm.trans h
  exact ⟨⟨rfl, rfl, rfl, rfl, rfl⟩, r, rfl⟩

/-- A command other than TICK leaves the count as it is, and does the same at every other count. -/
theorem exec_withTick_of_ne_tick {i : Instr} (hi : i ≠ .tick) (s : State) (n : BitVec 32) :
    ∃ t, exec i s = .next t ∧ t.tick = s.tick ∧ exec i { s with tick := n } = .next { t with tick := n } := by
  cases i with
  | tick => exact absurd rfl hi
  | nop | noteOn | noteOnRsvdWave | noteOff | rsvdLow | rsvdHigh => exact ⟨_, rfl, rfl, rfl⟩

theorem exec_tick_of_ne_tick {i : Instr} (hi : i ≠ .tick) {s t : State} (h : exec i s = .next t) : t.tick = s.tick := by
  obtain ⟨u, hexec, htick, _⟩ := exec_withTick_of_ne_tick hi s s.tick
  cases hexec.symm.trans h
  exact htick

/-- States that agree in the parameters, the register file and TICK get the same register file, TICK and response. -/
theorem exec_eq_next_of_agree (i : Instr) {s s' : State} (hcfg : s'.cfg = s.cfg) (hvoices : s'.voices = s.voices)
    (htick : s'.tick = s.tick) :
    ∃ voices tick r, exec i s = .next ((s.withPoolAndTick voices tick).emit r) ∧
      exec i s' = .next ((s'.withPoolAndTick voices tick).emit r) := by
  obtain ⟨cfg, voices, tick, _⟩ := s
  obtain ⟨cfg', voices', tick', _⟩ := s'
  subst hcfg hvoices htick
  cases i <;> exact ⟨_, _, _, rfl, rfl⟩

section fields
variable {cfg : Config} {tick : BitVec 32} {i : Instr} {v v' : Voice} (h : SlotWrite cfg tick i v v')
include h

theorem SlotWrite.parameters (hi : isNoteOn i = false) :
    v'.wave = v.wave ∧ v'.note = v.note ∧ v'.vol = v.vol ∧ v'.inc = v.inc := by
  cases h with
  | load => cases hi
  | keep | advance | release => simp

theorem SlotWrite.phase_lfsr (hi : isNoteOn i = false) (ht : i ≠ .tick) : v'.phase = v.phase ∧ v'.lfsr = v.lfsr := by
  cases h with
  | load => cases hi
  | advance => exact absurd rfl ht
  | keep | release => simp

theorem SlotWrite.active (hon : isNoteOn i = false) (hoff : isNoteOff i = false) : v'.active = v.active := by
  cases h with
  | load => cases hon
  | release => cases hoff
  | keep | advance => simp

theorem SlotWrite.eq_of_noteOff (hi : isNoteOff i = true) (ha : v'.active = true) : v' = v := by
  cases h with
  | keep => rfl
  | release => simp at ha
  | advance | load => cases hi

theorem SlotWrite.active_of_noteOn (hi : isNoteOn i = true) (ha : v.active = true) : v'.active = true := by
  cases h with
  | keep => exact ha
  | load => rfl
  | advance | release => cases hi

theorem SlotWrite.eq_of_tick (hi : i = .tick) (ha : v.active = false) : v' = v := by
  cases h with
  | keep => rfl
  | advance => exact Voice.advance_of_inactive _ _ _ ha
  | load | release => cases hi

end fields

/-- Settles O35: the clauses about a slot are the facts of `SlotWrite`. -/
theorem fieldsChangeOnlyByTheirWriters : Obligations.FieldsChangeOnlyByTheirWriters := by
  intro i s t h
  obtain ⟨hport, hresponse⟩ := exec_port h
  refine ⟨hport, hresponse, fun hi => exec_tick_of_ne_tick hi h, fun c j => optionRel_isSome (exec_slotWrite h c j), ?_⟩
  intro c j v v' hv hv'
  obtain ⟨u, hu, hw⟩ := exec_slotWrite_of_some h hv'
  cases hu.symm.trans hv
  exact ⟨hw.parameters, hw.phase_lfsr, hw.active, hw.eq_of_noteOff, hw.active_of_noteOn, hw.eq_of_tick⟩

/-- Settles O40. -/
theorem onlyTickReadsAndWritesTheCounter : Obligations.OnlyTickReadsAndWritesTheCounter :=
  ⟨fun s => ⟨_, exec_tick s, BitVec.toNat_add s.tick 1⟩, fun _ s n hi => exec_withTick_of_ne_tick hi s n⟩

/-- Settles O41. -/
theorem portDoesNotReachTheVoices : Obligations.PortDoesNotReachTheVoices := by
  intro i s s' hcfg hvoices htick
  obtain ⟨voices, tick, r, h, h'⟩ := exec_eq_next_of_agree i hcfg hvoices htick
  exact ⟨_, _, r, h, h', rfl, rfl, hcfg, rfl, rfl⟩

end Sys2Proof.Machine
end

