-- ==== Sys2Proof/Proofs/Invariant.lean ====
section
/-! The invariant of the reachable states (R22, R35): the noise registers stay nonzero (R112), every command keeps the shape of
the register file, and reset establishes both. -/

namespace Sys2Proof.Machine

open Sys2Proof Sys2Proof.Rules

/-- A shift is zero only of zero: bits 1 to 14 move down by one, so they are 0, and then the feedback bit is bit 0. -/
theorem lfsrShift_ne_zero {tap : Nat} (htap : 0 < tap) {x : Lfsr} (hx : x ≠ 0) : lfsrShift tap x ≠ 0 := by
  intro hzero
  have hbit (i : Nat) (hi : i < 15) :
      (if i = 14 then x.getLsbD 0 ^^ x.getLsbD tap else x.getLsbD (i + 1)) = false := by
    rw [← getLsbD_lfsrShift tap x i hi, hzero]
    exact BitVec.getLsbD_zero
  have habove (i : Nat) (hi : 0 < i) : x.getLsbD i = false := by
    rcases Nat.lt_or_ge i 15 with hlt | hge
    · have h := hbit (i - 1) (by omega)
      rwa [if_neg (by omega), Nat.sub_add_cancel hi] at h
    · exact BitVec.getLsbD_of_ge x i hge
  have hlowest : x.getLsbD 0 = false := by
    simpa [habove tap htap] using hbit 14 (by omega)
  refine hx (BitVec.eq_of_getLsbD_eq fun i _ => Eq.trans ?_ BitVec.getLsbD_zero.symm)
  rcases i.eq_zero_or_pos with rfl | hi
  · exact hlowest
  · exact habove i hi

theorem lfsrStep_ne_zero (wave : Waveform) {x : Lfsr} (hx : x ≠ 0) : lfsrStep wave x ≠ 0 := by
  unfold lfsrStep
  split
  · exact lfsrShift_ne_zero (by decide) hx
  · exact lfsrShift_ne_zero (by decide) hx

theorem Voice.nextLfsr_ne_zero (cfg : Config) (t : BitVec 32) {v : Voice} (h : v.lfsr ≠ 0) : v.nextLfsr cfg t ≠ 0 := by
  unfold Voice.nextLfsr
  split
  · exact lfsrStep_ne_zero _ h
  · exact h

theorem SlotWrite.lfsr_ne_zero {cfg : Config} {tick : BitVec 32} {i : Instr} {v v' : Voice}
    (hw : SlotWrite cfg tick i v v') (h : v.lfsr ≠ 0) : v'.lfsr ≠ 0 := by
  cases hw with
  | keep | release => exact h
  | load => exact lfsrSeed_ne_zero
  | advance =>
    rw [Voice.advance_lfsr]
    split
    · exact Voice.nextLfsr_ne_zero cfg tick h
    · exact h

/-- The shape of the register file, slot by slot (R22). -/
theorem State.shaped_iff_slots (s : State) :
    s.shaped = true ↔ s.voices.length = numChannels s.cfg ∧
      ∀ c j, (s.slot? c j).isSome = true ↔ c < numChannels s.cfg ∧ j < s.cfg.voicesPerChannel := by
  refine ⟨fun h => ⟨(s.shaped_iff.mp h).1, State.slot?_isSome_of_shaped h⟩, fun ⟨hlen, hslots⟩ => ?_⟩
  refine s.shaped_iff.mpr ⟨hlen, fun row hrow => ?_⟩
  obtain ⟨c, hc⟩ := List.mem_iff_getElem?.mp hrow
  have hlt : c < numChannels s.cfg := hlen ▸ (List.getElem?_eq_some_iff.mp hc).1
  refine eq_of_forall_lt_iff fun j => ?_
  simpa [State.slot?, State.row_of_getElem? hc, hlt] using hslots c j

/-- Every LFSR is nonzero, slot by slot (R35). -/
theorem State.lfsrsNonzero_iff_slots (s : State) :
    s.lfsrsNonzero = true ↔ ∀ c j v, s.slot? c j = some v → v.lfsr ≠ 0 := by
  rw [State.lfsrsNonzero_iff]
  constructor
  · intro h c j v hv
    have hmem : v ∈ s.row c := List.mem_of_getElem? hv
    by_cases hc : c < s.voices.length
    · exact h _ (State.row_mem_of_lt hc) v hmem
    · rw [State.row_of_none (by simpa using hc)] at hmem
      cases hmem
  · intro h row hrow v hv
    obtain ⟨c, hc⟩ := List.mem_iff_getElem?.mp hrow
    obtain ⟨j, hj⟩ := List.mem_iff_getElem?.mp hv
    exact h c j v (by rwa [State.slot?, State.row_of_getElem? hc])

/-- The invariant reads the parameters and the register file only. -/
theorem State.Inv.of_agree {s t : State} (h : s.Inv) (hcfg : t.cfg = s.cfg) (hvoices : t.voices = s.voices) : t.Inv := by
  simpa only [State.Inv, State.shaped, State.lfsrsNonzero, hcfg, hvoices] using h

/-- The register file at reset has the invariant (R230). -/
theorem State.inv_of_resetPool {s : State} (hlegal : s.cfg.legal = true) (hvoices : s.voices = resetPool s.cfg) : s.Inv := by
  refine ⟨hlegal, s.shaped_iff.mpr ?_, s.lfsrsNonzero_iff.mpr ?_⟩
  · rw [hvoices]
    refine ⟨List.length_replicate, fun row hrow => ?_⟩
    rw [List.eq_of_mem_replicate hrow, List.length_replicate]
  · rw [hvoices]
    intro row hrow v hv
    rw [List.eq_of_mem_replicate hrow] at hv
    rw [List.eq_of_mem_replicate hv]
    exact lfsrSeed_ne_zero

/-- Every command keeps the invariant. -/
theorem exec_inv {i : Instr} {s t : State} (hinv : s.Inv) (h : exec i s = .next t) : t.Inv := by
  obtain ⟨hlegal, hshaped, hlfsrs⟩ := hinv
  obtain ⟨hlen, hslots⟩ := s.shaped_iff_slots.mp hshaped
  obtain ⟨⟨hcfg, _⟩, _⟩ := exec_port h
  refine ⟨hcfg ▸ hlegal, t.shaped_iff_slots.mpr ⟨?_, fun c j => ?_⟩, t.lfsrsNonzero_iff_slots.mpr fun c j v' hv' => ?_⟩
  · rw [exec_voices_length h, hcfg, hlen]
  · rw [optionRel_isSome (exec_slotWrite h c j), hcfg, hslots]
  · obtain ⟨v, hv, hw⟩ := exec_slotWrite_of_some h hv'
    exact hw.lfsr_ne_zero (s.lfsrsNonzero_iff_slots.mp hlfsrs c j v hv)

/-- Settles O49: the register file after a step is the one of reset, the one before, or what a command left. -/
theorem stepKeepsTheInvariant : Obligations.StepKeepsTheInvariant := by
  intro s t hinv hstep
  rcases step_cases s with ⟨timing, _, h⟩ | ⟨_, _, h⟩ | ⟨w, u, _, haccept, h⟩
  · cases h.symm.trans hstep
    obtain ⟨hcfg, hvoices, _⟩ := applyReset_frame s timing
    exact State.inv_of_resetPool (hcfg ▸ hinv.1) (by rw [hvoices, hcfg])
  · cases h.symm.trans hstep
    exact hinv
  · obtain ⟨hcfg, hvoices, _⟩ := accept_frame haccept
    exact exec_inv (hinv.of_agree hcfg hvoices) (h.symm.trans hstep)

/-- No step writes the parameters (R6). -/
theorem step_cfg {s t : State} (hstep : step s = .next t) : t.cfg = s.cfg := by
  rcases step_cases s with ⟨timing, _, h⟩ | ⟨_, _, h⟩ | ⟨w, u, _, haccept, h⟩
  · cases h.symm.trans hstep
    exact (applyReset_frame s timing).1
  · cases h.symm.trans hstep
    rfl
  · obtain ⟨⟨hexec, _⟩, _⟩ := exec_port (h.symm.trans hstep)
    rw [hexec, (accept_frame haccept).1]

theorem State.resetWith_inv {cfg : Config} (hlegal : cfg.legal = true) : (State.resetWith cfg).Inv :=
  State.inv_of_resetPool hlegal rfl

/-- Settles O50. -/
theorem resetHasTheInvariant : Obligations.ResetHasTheInvariant :=
  ⟨fun _ => State.resetWith_inv, State.resetWith_inv (by decide)⟩

/-- Settles O51, by induction on how the state was reached. -/
theorem everyReachableStateHasTheInvariant : Obligations.EveryReachableStateHasTheInvariant := by
  intro cfg hlegal s hs
  induction hs with
  | powerUp => exact ⟨State.resetWith_inv hlegal, rfl⟩
  | step _ hstep ih =>
    obtain ⟨hinv, hcfg⟩ := ih
    exact ⟨stepKeepsTheInvariant _ _ hinv hstep, (step_cfg hstep).trans hcfg⟩
  | present agent w _ ih =>
    obtain ⟨hinv, hcfg⟩ := ih
    exact ⟨hinv.of_agree (by simp) (by simp), by simpa using hcfg⟩
  | assertReset timing _ ih =>
    obtain ⟨hinv, hcfg⟩ := ih
    exact ⟨hinv.of_agree rfl rfl, hcfg⟩

end Sys2Proof.Machine
end

