-- ==== Sys2Proof/Proofs/ByteLink.lean ====
section
/-! Words on a byte-wide link (R56, R57): the bytes of a word by their index, and taking whole words off a run of bytes. -/

namespace Sys2Proof

/-- The byte at bit `start` of a word, as a number (R56). -/
theorem byte_eq_ofNat_div {n : Nat} (w : BitVec n) (start : Nat) :
    w.extractLsb' start 8 = BitVec.ofNat 8 (w.toNat / 2 ^ start) := by
  rw [BitVec.extractLsb', Nat.shiftRight_eq_div_pow]

theorem bytesOfCommand_eq_map (w : CommandWord) :
    bytesOfCommand w = (List.range 8).map (fun k => w.extractLsb' (8 * k) 8) := rfl

theorem bytesOfResponse_eq_map (r : ResponseWord) :
    bytesOfResponse r = (List.range 4).map (fun k => r.extractLsb' (8 * k) 8) := rfl

theorem bytesOfCommand_getElem? (w : CommandWord) {k : Nat} (hk : k < 8) :
    (bytesOfCommand w)[k]? = some (BitVec.ofNat 8 (w.toNat / 2 ^ (8 * k))) := by
  rw [bytesOfCommand_eq_map, List.getElem?_map, List.getElem?_range hk, Option.map_some, byte_eq_ofNat_div]

theorem bytesOfResponse_getElem? (r : ResponseWord) {k : Nat} (hk : k < 4) :
    (bytesOfResponse r)[k]? = some (BitVec.ofNat 8 (r.toNat / 2 ^ (8 * k))) := by
  rw [bytesOfResponse_eq_map, List.getElem?_map, List.getElem?_range hk, Option.map_some, byte_eq_ofNat_div]

/-- The eight bytes of a word, put together from the most significant down, are the word. -/
theorem concat_bytes (w : CommandWord) :
    w.extractLsb' 56 8 ++ w.extractLsb' 48 8 ++ w.extractLsb' 40 8 ++ w.extractLsb' 32 8 ++ w.extractLsb' 24 8 ++
      w.extractLsb' 16 8 ++ w.extractLsb' 8 8 ++ w.extractLsb' 0 8 = w := by
  iterate 7 rw [BitVec.extractLsb'_append_extractLsb'_eq_extractLsb' (by rfl)]
  exact BitVec.extractLsb'_eq_self

/-- The first eight bytes are taken as one word, and the rest is left over. -/
theorem commandOfBytes_append (w : CommandWord) (rest : List Byte) :
    commandOfBytes (bytesOfCommand w ++ rest) = .ok (w, rest) :=
  congrArg (fun v => Except.ok (v, rest)) (concat_bytes w)

theorem commandsOfBytes_append (w : CommandWord) (rest : List Byte) :
    commandsOfBytes (bytesOfCommand w ++ rest) = w :: commandsOfBytes rest :=
  congrArg (· :: commandsOfBytes rest) (concat_bytes w)

section partialWord
variable {bytes : List Byte} (h : bytes.length < 8)
include h

theorem commandOfBytes_of_length_lt : commandOfBytes bytes = .error .partialWord := by
  unfold commandOfBytes
  split
  · simp only [List.length_cons] at h
    omega
  · rfl

theorem commandsOfBytes_of_length_lt : commandsOfBytes bytes = [] := by
  unfold commandsOfBytes
  split
  · simp only [List.length_cons] at h
    omega
  · rfl

end partialWord

/-- The words a link carries come back in order, and a partial word after them is dropped (R57). -/
theorem commandsOfBytes_flatMap_append (ws : List CommandWord) {part : List Byte} (h : part.length < 8) :
    commandsOfBytes (ws.flatMap bytesOfCommand ++ part) = ws := by
  induction ws with
  | nil => exact commandsOfBytes_of_length_lt h
  | cons w ws ih => rw [List.flatMap_cons, List.append_assoc, commandsOfBytes_append, ih]

/-- Settles O9. -/
theorem linkCarriesWholeWordsLowByteFirst : Obligations.LinkCarriesWholeWordsLowByteFirst := by
  refine ⟨fun _ => rfl, fun _ => rfl, fun w _ => bytesOfCommand_getElem? w, fun r _ => bytesOfResponse_getElem? r, ?_, ?_,
    fun ws _ => commandsOfBytes_flatMap_append ws⟩
  · intro w rest
    rw [decodeBytes, commandOfBytes_append]
  · intro bytes h
    rw [decodeBytes, commandOfBytes_of_length_lt h]

end Sys2Proof
end

