-- ==== Sys2Proof/Proofs/NoteOff.lean ====
section
/-! NOTE_OFF where no voice of the channel sounds its note, which is how every NOTE_OFF leaves the channel (R135, R136). -/

namespace Sys2Proof.Machine

open Sys2Proof

theorem State.withRow_self (s : State) (c : Nat) : s.withRow c (s.row c) = s := by
  have hset : s.voices.set c (s.row c) = s.voices := by
    by_cases hc : c < s.voices.length
    · rw [State.row_of_getElem? (List.getElem?_eq_getElem hc), List.set_getElem_self]
    · exact List.set_eq_of_length_le (Nat.le_of_not_lt hc)
  rw [State.withRow, hset]

theorem Voice.sounds_release (note : BitVec 7) (v : Voice) : v.release.sounds note = false := by
  rw [Voice.sounds, Voice.release_active, Bool.false_and]

/-- A NOTE_OFF that matches no voice only answers, with the count 0. -/
theorem exec_noteOff_of_none_sounds {s : State} {ch : BitVec 4} {note : BitVec 7}
    (h : ∀ v ∈ s.row (chan s.cfg ch), v.sounds note = false) :
    exec (.noteOff ch note) s = .next (s.emit 0x03000000) := by
  have hrow : (s.row (chan s.cfg ch)).map (fun v => if v.sounds note then v.release else v) = s.row (chan s.cfg ch) :=
    (List.map_congr_left fun v hv => if_neg (ne_true_of_eq_false (h v hv))).trans (List.map_id' _)
  have hcount : (s.row (chan s.cfg ch)).countP (Voice.sounds note) = 0 :=
    List.countP_eq_zero.mpr fun v hv => by simp [h v hv]
  rw [exec_noteOff, hrow, hcount, State.withRow_self]
  rfl

/-- After a NOTE_OFF no voice of its channel sounds its note. -/
theorem noteOff_none_sounds {s t : State} {ch : BitVec 4} {note : BitVec 7} (h : exec (.noteOff ch note) s = .next t) :
    ∀ v ∈ t.row (chan t.cfg ch), v.sounds note = false := by
  cases h
  rw [State.emit_row, State.withRow_row_same_length _ _ _ _ (List.length_map _), State.emit_cfg, State.withRow_cfg,
    if_pos rfl]
  intro v hv
  obtain ⟨u, -, rfl⟩ := List.mem_map.mp hv
  split
  case isTrue => exact Voice.sounds_release note u
  case isFalse hu => exact eq_false_of_ne_true hu

/-- Settles O38: the first NOTE_OFF leaves no voice for the second to match. -/
theorem noteOffIsIdempotent : Obligations.NoteOffIsIdempotent :=
  fun _ _ _ _ h => exec_noteOff_of_none_sounds (noteOff_none_sounds h)

end Sys2Proof.Machine
end

