-- ==== Sys2Proof/Proofs/CommandStreams.lean ====
section
/-! The two streams of commands (R53, R54): whose head a step takes, what it answers, and a run until both are empty as the
serial application of an interleaving. -/

namespace Sys2Proof.Machine

open Sys2Proof Sys2Proof.Rules

section accept
variable {s : State} {w wc we : CommandWord} {rest restc reste : List CommandWord}

theorem accept_of_clock_only (hc : s.clockStream = w :: rest) (he : s.eventStream = []) :
    s.accept = some (w, { s with clockStream := rest }) := by
  simp only [State.accept, hc, he]

theorem accept_of_event_only (hc : s.clockStream = []) (he : s.eventStream = w :: rest) :
    s.accept = some (w, { s with eventStream := rest }) := by
  simp only [State.accept, hc, he]

theorem accept_of_both_sampleClock (hc : s.clockStream = wc :: restc) (he : s.eventStream = we :: reste)
    (ha : Config.arbiter s.contentions = .sampleClock) :
    s.accept = some (wc, { s with clockStream := restc, contentions := s.contentions + 1 }) := by
  simp only [State.accept, hc, he, ha]

theorem accept_of_both_eventController (hc : s.clockStream = wc :: restc) (he : s.eventStream = we :: reste)
    (ha : Config.arbiter s.contentions = .eventController) :
    s.accept = some (we, { s with eventStream := reste, contentions := s.contentions + 1 }) := by
  simp only [State.accept, hc, he, ha]

end accept

/-- With no reset asserted a step executes the command it accepts (R52). -/
theorem step_of_accept {s t : State} {w : CommandWord} (hr : s.resetLine = none) (h : s.accept = some (w, t)) :
    step s = exec (decode w) t := by
  simp only [step, hr, h]

/-- Settles O42. -/
theorem stepRunsTheDecodedCommand : Obligations.StepRunsTheDecodedCommand := by
  refine ⟨fun s w rest hr hc he => step_of_accept hr (accept_of_clock_only hc he),
    fun s w rest hr he hc => step_of_accept hr (accept_of_event_only hc he), ?_⟩
  intro s wc we restc reste hr hc he
  cases ha : Config.arbiter s.contentions with
  | sampleClock => exact step_of_accept hr (accept_of_both_sampleClock hc he ha)
  | eventController => exact step_of_accept hr (accept_of_both_eventController hc he ha)

@[simp] theorem opr_responseWord (ign : Bool) (op : BitVec 4) (slot : Nat) (sample : Int) :
    ResponseWord.opr (responseWord ign op slot sample) = op := by
  apply BitVec.eq_of_getLsbD_eq
  intro i hi
  simp only [ResponseWord.opr, responseWord, BitVec.getLsbD_extractLsb', BitVec.getLsbD_append]
  grind

/-- A command's one response echoes its code (R79). -/
theorem exec_response {i : Instr} {s t : State} (h : exec i s = .next t) :
    ∃ r, t.responses = s.responses ++ [r] ∧ ResponseWord.opr r = i.opcode := by
  cases i with
  | nop | tick | noteOn | noteOnRsvdWave | noteOff | rsvdLow | rsvdHigh =>
    cases h
    exact ⟨_, rfl, opr_responseWord ..⟩

/-- Accepting a command takes the head of one stream and leaves the other as it was (R54). -/
theorem accept_streams {s t : State} {w : CommandWord} (h : s.accept = some (w, t)) :
    (s.clockStream = w :: t.clockStream ∧ t.eventStream = s.eventStream) ∨
    (s.eventStream = w :: t.eventStream ∧ t.clockStream = s.clockStream) :=
  (accept_cases h).imp (fun ⟨hhead, ht⟩ => ⟨hhead, ht ▸ rfl⟩) (fun ⟨hhead, ht⟩ => ⟨hhead, ht ▸ rfl⟩)

/-- Settles O44: the command a step accepts is the head of one stream, and executing it leaves the port as it is. -/
theorem stepKeepsEachStreamsOrder : Obligations.StepKeepsEachStreamsOrder := by
  intro s t hr hstep
  rcases step_cases s with ⟨timing, hr', _⟩ | ⟨_, haccept, h⟩ | ⟨w, u, _, haccept, h⟩
  · cases hr.symm.trans hr'
  · cases h.symm.trans hstep
    obtain ⟨hc, he⟩ := (accept_eq_none_iff s).mp haccept
    exact .inl ⟨hc, he, rfl, hc, he⟩
  · have hexec := h.symm.trans hstep
    obtain ⟨⟨_, hclock, hevent, _⟩, _⟩ := exec_port hexec
    obtain ⟨r, hresponse, hopr⟩ := exec_response hexec
    obtain ⟨_, _, _, _, hbefore⟩ := accept_frame haccept
    rw [hbefore] at hresponse
    rw [opcode_decode] at hopr
    rw [hclock, hevent]
    rcases accept_streams haccept with ⟨hhead, hother⟩ | ⟨hhead, hother⟩
    · exact .inr (.inl ⟨w, r, hhead, hother, hresponse, hopr⟩)
    · exact .inr (.inr ⟨w, r, hhead, hother, hresponse, hopr⟩)

/-- `t` is the same block as `s`, with the same responses delivered: only what waits at the port may differ. -/
structure SameBlock (s t : State) : Prop where
  cfg : t.cfg = s.cfg
  voices : t.voices = s.voices
  tick : t.tick = s.tick
  responses : t.responses = s.responses

theorem SameBlock.refl (s : State) : SameBlock s s := ⟨rfl, rfl, rfl, rfl⟩

theorem SameBlock.of_accept {s s' t : State} {w : CommandWord} (h : SameBlock s s') (haccept : s.accept = some (w, t)) :
    SameBlock t s' := by
  obtain ⟨hcfg, hvoices, htick, _, hresponses⟩ := accept_frame haccept
  exact ⟨h.cfg.trans hcfg.symm, h.voices.trans hvoices.symm, h.tick.trans htick.symm, h.responses.trans hresponses.symm⟩

/-- A command does the same to the same block, whatever waits at the port (R20). -/
theorem SameBlock.exec {s s' : State} (h : SameBlock s s') (i : Instr) :
    ∃ t t', exec i s = .next t ∧ exec i s' = .next t' ∧ SameBlock t t' := by
  obtain ⟨voices, tick, r, hexec, hexec'⟩ := exec_eq_next_of_agree i h.cfg h.voices h.tick
  exact ⟨_, _, hexec, hexec', h.cfg, rfl, rfl, congrArg (· ++ [r]) h.responses⟩

/-- How many commands wait at the port. -/
def State.pending (s : State) : Nat := s.clockStream.length + s.eventStream.length

theorem State.pending_eq_zero_iff (s : State) : s.pending = 0 ↔ s.clockStream = [] ∧ s.eventStream = [] := by
  simp [State.pending]

theorem exists_accept_of_pending {s : State} (h : s.pending ≠ 0) : ∃ w t, s.accept = some (w, t) := by
  rw [Ne, State.pending_eq_zero_iff, ← accept_eq_none_iff] at h
  obtain ⟨⟨w, t⟩, haccept⟩ := Option.ne_none_iff_exists'.mp h
  exact ⟨w, t, haccept⟩

theorem pending_of_accept {s t : State} {w : CommandWord} (h : s.accept = some (w, t)) : s.pending = t.pending + 1 := by
  unfold State.pending
  rcases accept_streams h with ⟨hhead, hother⟩ | ⟨hhead, hother⟩
  · rw [hhead, hother, List.length_cons, Nat.add_right_comm]
  · rw [hhead, hother, List.length_cons, Nat.add_assoc]

theorem interleaves_of_accept {s t : State} {w : CommandWord} {order : List CommandWord} (h : s.accept = some (w, t))
    (horder : Interleaves t.clockStream t.eventStream order) : Interleaves s.clockStream s.eventStream (w :: order) := by
  rcases accept_streams h with ⟨hhead, hother⟩ | ⟨hhead, hother⟩
  · rw [hhead, ← hother]
    exact .left w horder
  · rw [hhead, ← hother]
    exact .right w horder

/-- A step takes a waiting command and does to the block what executing that command does to the same block. -/
theorem step_commutes_with_exec {s s' : State} (hr : s.resetLine = none) (hsame : SameBlock s s') (hs : s.pending ≠ 0) :
    ∃ w t t', step s = .next t ∧ exec (decode w) s' = .next t' ∧ SameBlock t t' ∧ t.resetLine = none ∧
      s.pending = t.pending + 1 ∧
      ∀ order, Interleaves t.clockStream t.eventStream order → Interleaves s.clockStream s.eventStream (w :: order) := by
  obtain ⟨w, a, haccept⟩ := exists_accept_of_pending hs
  obtain ⟨t, t', hexec, hexec', hsame'⟩ := (hsame.of_accept haccept).exec (decode w)
  obtain ⟨⟨_, hclock, hevent, _, hline⟩, _⟩ := exec_port hexec
  obtain ⟨_, _, _, hline', _⟩ := accept_frame haccept
  refine ⟨w, t, t', (step_of_accept hr haccept).trans hexec, hexec', hsame', hline.trans (hline'.trans hr), ?_, ?_⟩
  · rw [pending_of_accept haccept, State.pending, State.pending, hclock, hevent]
  · intro order horder
    rw [hclock, hevent] at horder
    exact interleaves_of_accept haccept horder

/-- A run until both streams are empty does to the block what some interleaving of them does serially to the same block. -/
theorem run_eq_applyAll_interleaving {s s' : State} (hr : s.resetLine = none) (hsame : SameBlock s s') :
    ∃ order t u, Interleaves s.clockStream s.eventStream order ∧ Sys2Proof.core.run order.length s = .next t ∧
      t.clockStream = [] ∧ t.eventStream = [] ∧ applyAll order s' = .next u ∧ SameBlock t u := by
  induction hn : s.pending generalizing s s' with
  | zero =>
    obtain ⟨hc, he⟩ := s.pending_eq_zero_iff.mp hn
    refine ⟨[], s, s', ?_, rfl, hc, he, rfl, hsame⟩
    rw [hc, he]
    exact .nil
  | succ n ih =>
    obtain ⟨w, a, a', hstep, hexec, hsame', hline, hpending, hinterleaves⟩ := step_commutes_with_exec hr hsame (by omega)
    obtain ⟨order, t, u, horder, hrun, hc, he, happly, hend⟩ := ih hline hsame' (by omega)
    refine ⟨w :: order, t, u, hinterleaves order horder, ?_, hc, he, ?_, hend⟩
    · rw [List.length_cons, core_run_succ _ hstep, hrun]
    · rw [applyAll, hexec]
      exact happly

/-- Settles O52, comparing the run with the serial application started from the same state. -/
theorem runIsASerialInterleaving : Obligations.RunIsASerialInterleaving := by
  intro s hr
  obtain ⟨order, t, u, horder, hrun, hc, he, happly, hsame⟩ := run_eq_applyAll_interleaving hr (.refl s)
  exact ⟨order, t, u, horder, hrun, hc, he, happly, hsame.voices.symm, hsame.tick.symm, hsame.responses.symm⟩

end Sys2Proof.Machine
end

