-- ==== Sys2Proof/Proofs/WordFields.lean ====
section
/-! The fields of a command word as numbers (R71), a packed word as the number of the encoding formula (R83), and a word's
masked bits as the packing of its masked fields, which turns a mask of the opcode table into tests of fields. -/

namespace Sys2Proof

/-- A field of `width` bits from bit `start`, as an unsigned number. -/
theorem toNat_extractLsb'_eq_div_mod {n : Nat} (w : BitVec n) (start width : Nat) :
    (w.extractLsb' start width).toNat = w.toNat / 2 ^ start % 2 ^ width := by
  rw [BitVec.extractLsb'_toNat, Nat.shiftRight_eq_div_pow]

/-- OP is the top field, so nothing above it is to be cut off. -/
theorem opField_toNat (w : CommandWord) : (opField w).toNat = w.toNat / 2 ^ 60 := by
  rw [opField, toNat_extractLsb'_eq_div_mod]
  exact Nat.mod_eq_of_lt (Nat.div_lt_of_lt_mul w.isLt)

theorem chField_toNat (w : CommandWord) : (chField w).toNat = w.toNat / 2 ^ 56 % 16 := toNat_extractLsb'_eq_div_mod w 56 4

theorem noteField_toNat (w : CommandWord) : (noteField w).toNat = w.toNat / 2 ^ 49 % 128 :=
  toNat_extractLsb'_eq_div_mod w 49 7

theorem waveField_toNat (w : CommandWord) : (waveField w).toNat = w.toNat / 2 ^ 46 % 8 := toNat_extractLsb'_eq_div_mod w 46 3

theorem volField_toNat (w : CommandWord) : (volField w).toNat = w.toNat / 2 ^ 39 % 128 := toNat_extractLsb'_eq_div_mod w 39 7

theorem incField_toNat (w : CommandWord) : (incField w).toNat = w.toNat % 2 ^ 32 := by
  rw [incField, toNat_extractLsb'_eq_div_mod, pow_zero, Nat.div_one]

theorem toNat_append_eq_add {m n : Nat} (x : BitVec m) (y : BitVec n) : (x ++ y).toNat = x.toNat * 2 ^ n + y.toNat := by
  rw [BitVec.toNat_append, ← Nat.shiftLeft_add_eq_or_of_lt y.isLt, Nat.shiftLeft_eq]

/-- The encoding formula of R83. -/
theorem packFields_toNat (op ch : BitVec 4) (note : BitVec 7) (wave : BitVec 3) (vol : BitVec 7) (inc : CycleFraction) :
    (packFields op ch note wave vol inc).toNat =
      op.toNat * 2 ^ 60 + ch.toNat * 2 ^ 56 + note.toNat * 2 ^ 49 + wave.toNat * 2 ^ 46 + vol.toNat * 2 ^ 39 + inc.toNat := by
  simp only [packFields, toNat_append_eq_add, BitVec.ofNat_eq_ofNat, BitVec.toNat_ofNat]
  omega

/-- Masking a word by a mask with no bit of RSV masks each field and clears RSV. -/
theorem and_packFields (w : CommandWord) (op ch : BitVec 4) (note : BitVec 7) (wave : BitVec 3) (vol : BitVec 7)
    (inc : CycleFraction) :
    w &&& packFields op ch note wave vol inc =
      packFields (opField w &&& op) (chField w &&& ch) (noteField w &&& note) (waveField w &&& wave) (volField w &&& vol)
        (incField w &&& inc) := by
  apply BitVec.eq_of_getLsbD_eq
  intro i hi
  simp only [packFields, opField, chField, noteField, waveField, volField, incField, BitVec.getLsbD_and,
    BitVec.getLsbD_append, BitVec.getLsbD_extractLsb']
  grind

/-- Packing loses no field. -/
theorem packFields_inj {op ch op' ch' : BitVec 4} {note note' : BitVec 7} {wave wave' : BitVec 3} {vol vol' : BitVec 7}
    {inc inc' : CycleFraction} :
    packFields op ch note wave vol inc = packFields op' ch' note' wave' vol' inc' ↔
      op = op' ∧ ch = ch' ∧ note = note' ∧ wave = wave' ∧ vol = vol' ∧ inc = inc' := by
  constructor
  · intro h
    exact ⟨by simpa using congrArg opField h, by simpa using congrArg chField h, by simpa using congrArg noteField h,
      by simpa using congrArg waveField h, by simpa using congrArg volField h, by simpa using congrArg incField h⟩
  · rintro ⟨rfl, rfl, rfl, rfl, rfl, rfl⟩
    rfl

end Sys2Proof
end

