-- ==== Sys2Proof/Proofs/CommandDecoding.lean ====
section
/-! The decoder against the encoder (R75, R83), against the kinds of R76 and against the rows of the opcode table. -/

namespace Sys2Proof

open Sys2Proof.Rules

/-- Settles O1: each field of the packed word reads back, and the operand ranges of a well-formed command pick its row. -/
theorem decodeOfEncodeIsIdentity : Obligations.DecodeOfEncodeIsIdentity := by
  intro i hwf
  cases i with
  | nop => exact decode_of_op_0 _ (opField_packFields ..)
  | tick => exact decode_of_op_1 _ (opField_packFields ..)
  | noteOn ch note wave vol inc =>
    rw [encode, decode_of_op_2 _ (opField_packFields ..) (waveField_packFields ..)]
    simp
  | noteOnRsvdWave ch note wave vol inc =>
    have hwave : 6 ≤ wave.toNat := by simpa [Instr.wellFormed] using hwf
    rw [encode, decode_of_op_2_reserved _ (opField_packFields ..) (by simpa using hwave)]
    simp
  | noteOff ch note =>
    rw [encode, decode_of_op_3 _ (opField_packFields ..)]
    simp
  | rsvdLow op =>
    have hop : 4 ≤ op.toNat ∧ op.toNat ≤ 7 := by simpa [Instr.wellFormed] using hwf
    rw [encode, decode_of_op_low _ (by simpa using hop.1) (by simpa using hop.2)]
    simp
  | rsvdHigh op =>
    have hop : 8 ≤ op.toNat := by simpa [Instr.wellFormed] using hwf
    rw [encode, decode_of_op_high _ (by simpa using hop)]
    simp

section masks
variable (w : CommandWord)

/-- The bits of OP alone. -/
theorem and_opMask : w &&& 0xF000000000000000 = packFields (opField w) 0 0 0 0 0 := by
  rw [show (0xF000000000000000 : CommandWord) = packFields (.allOnes 4) 0 0 0 0 0 by decide, and_packFields]
  simp only [BitVec.and_allOnes, BitVec.ofNat_eq_ofNat, BitVec.and_zero]

/-- The bits of OP, CH and NOTE. -/
theorem and_noteOffMask : w &&& 0xFFFE000000000000 = packFields (opField w) (chField w) (noteField w) 0 0 0 := by
  rw [show (0xFFFE000000000000 : CommandWord) = packFields (.allOnes 4) (.allOnes 4) (.allOnes 7) 0 0 0 by decide,
    and_packFields]
  simp only [BitVec.and_allOnes, BitVec.ofNat_eq_ofNat, BitVec.and_zero]

/-- Every bit but those of RSV. -/
theorem and_noteOnMask :
    w &&& 0xFFFFFF80FFFFFFFF =
      packFields (opField w) (chField w) (noteField w) (waveField w) (volField w) (incField w) := by
  rw [show (0xFFFFFF80FFFFFFFF : CommandWord) =
    packFields (.allOnes 4) (.allOnes 4) (.allOnes 7) (.allOnes 3) (.allOnes 7) (.allOnes 32) by decide, and_packFields]
  simp only [BitVec.and_allOnes]

end masks

/-- Settles O2: a decoded command keeps the fields it carries, and its encoding packs them with RSV = 0. -/
theorem encodeOfDecodeClearsIgnoredBits : Obligations.EncodeOfDecodeClearsIgnoredBits := by
  intro w
  rcases decode_cases w with ⟨hop, hd⟩ | ⟨hop, hd⟩ | ⟨kind, hop, hwave, hd⟩ | ⟨hop, -, hd⟩ | ⟨hop, hd⟩ | ⟨-, -, hd⟩ | ⟨-, hd⟩
  · rw [hd, Instr.keptBits, and_opMask, hop, encode]
  · rw [hd, Instr.keptBits, and_opMask, hop, encode]
  · rw [hd, Instr.keptBits, and_noteOnMask, hop, hwave, encode]
  · rw [hd, Instr.keptBits, and_noteOnMask, hop, encode]
  · rw [hd, Instr.keptBits, and_noteOffMask, hop, encode]
  · rw [hd, Instr.keptBits, and_opMask, encode]
  · rw [hd, Instr.keptBits, and_opMask, encode]

/-- Settles O3: the seven ways a word decodes are told apart by OP and, for OP = 2, by WAVE. -/
theorem everyWordIsExactlyOneCommand : Obligations.EveryWordIsExactlyOneCommand := by
  intro w
  rw [← opField_toNat, ← waveField_toNat]
  rcases decode_cases w with
    ⟨hop, hd⟩ | ⟨hop, hd⟩ | ⟨kind, hop, hwave, hd⟩ | ⟨hop, hwave, hd⟩ | ⟨hop, hd⟩ | ⟨hlow, hhigh, hd⟩ | ⟨hlow, hd⟩
  · simp [hd, hop]
  · simp [hd, hop]
  · simp [hd, hop, hwave, kind.code_le, Nat.lt_succ_of_le kind.code_le]
  · simp [hd, hop, hwave, Nat.lt_of_succ_le hwave]
  · simp [hd, hop]
  · grind
  · grind

/-- The fields a decoded NOTE_ON carries. -/
theorem fields_of_decode_noteOn {w : CommandWord} {ch : BitVec 4} {note : BitVec 7} {wave : Waveform} {vol : BitVec 7}
    {inc : CycleFraction} (h : decode w = .noteOn ch note wave vol inc) :
    ch = chField w ∧ note = noteField w ∧ wave.code = waveField w ∧ vol = volField w ∧ inc = incField w := by
  have hpack := encodeOfDecodeClearsIgnoredBits w
  rw [h, Instr.keptBits, and_noteOnMask, encode, packFields_inj] at hpack
  exact hpack.2

/-- The fields a decoded NOTE_OFF carries. -/
theorem fields_of_decode_noteOff {w : CommandWord} {ch : BitVec 4} {note : BitVec 7} (h : decode w = .noteOff ch note) :
    ch = chField w ∧ note = noteField w := by
  have hpack := encodeOfDecodeClearsIgnoredBits w
  rw [h, Instr.keptBits, and_noteOffMask, encode, packFields_inj] at hpack
  obtain ⟨-, hch, hnote, -⟩ := hpack
  exact ⟨hch, hnote⟩

/-- Settles O4: a field of the word, as a number, is a run of the word's digits in base 2. -/
theorem operandsAreTheWordsFields : Obligations.OperandsAreTheWordsFields := by
  intro w
  refine ⟨fun ch note wave vol inc h => ?_, fun ch note h => ?_, fun op h => ?_⟩
  · obtain ⟨rfl, rfl, hwave, rfl, rfl⟩ := fields_of_decode_noteOn h
    rw [hwave]
    exact ⟨chField_toNat w, noteField_toNat w, waveField_toNat w, volField_toNat w, incField_toNat w⟩
  · obtain ⟨rfl, rfl⟩ := fields_of_decode_noteOff h
    exact ⟨chField_toNat w, noteField_toNat w⟩
  · have hop : op = opField w := by
      rw [← opcode_decode]
      rcases h with h | h <;> rw [h, Instr.opcode]
    rw [hop, opField_toNat]

/-- A command depends on OP and on the fields its OP uses alone (R72, R73). -/
theorem decode_congr {w w' : CommandWord} (hop : opField w = opField w')
    (hon : opField w = 2 → chField w = chField w' ∧ noteField w = noteField w' ∧ waveField w = waveField w' ∧
      volField w = volField w' ∧ incField w = incField w')
    (hoff : opField w = 3 → chField w = chField w' ∧ noteField w = noteField w') : decode w = decode w' := by
  by_cases h2 : opField w = 2
  · obtain ⟨hch, hnote, hwave, hvol, hinc⟩ := hon h2
    simp only [decode, hop, hch, hnote, hwave, hvol, hinc]
  by_cases h3 : opField w = 3
  · obtain ⟨hch, hnote⟩ := hoff h3
    rw [decode_of_op_3 w h3, decode_of_op_3 w' (hop ▸ h3), hch, hnote]
  · rw [hop] at h2 h3
    simp only [decode, hop, if_neg h2, if_neg h3]

/-- Settles O5: the two words decode to the same command. -/
theorem unusedFieldsHaveNoEffect : Obligations.UnusedFieldsHaveNoEffect := by
  intro w w' s hop hon hoff
  rw [decode_congr hop hon hoff]

/-- Settles O6 by evaluating the decoder. -/
theorem exampleWordsDecode : Obligations.ExampleWordsDecode := by
  refine ⟨?_, ?_, ?_, ?_, ?_, ?_, ?_, ?_⟩ <;> decide

/-- What an opcode-table row tests of a word, in terms of its fields. -/
def MatchesRow (w : CommandWord) : Instr → Prop
  | .nop => opField w = 0
  | .tick => opField w = 1
  | .noteOn _ _ _ _ _ => opField w = 2
  | .noteOnRsvdWave _ _ _ _ _ => opField w = 2 ∧ 6 ≤ (waveField w).toNat
  | .noteOff _ _ => opField w = 3
  | .rsvdLow _ => 4 ≤ (opField w).toNat ∧ (opField w).toNat ≤ 7
  | .rsvdHigh _ => 8 ≤ (opField w).toNat

section rows
variable (w : CommandWord)

theorem and_opMask_eq_iff (op : BitVec 4) : w &&& 0xF000000000000000 = packFields op 0 0 0 0 0 ↔ opField w = op := by
  rw [and_opMask, packFields_inj]
  simp

/-- The row of NOTE_ON with a reserved WAVE tests OP and the two high bits of WAVE. -/
theorem and_rsvdWaveMask_eq_iff :
    w &&& 0xF001800000000000 = 0x2001800000000000 ↔ opField w = 2 ∧ 6 ≤ (waveField w).toNat := by
  have hwave (x : BitVec 3) : x &&& 6 = 6 ↔ 6 ≤ x.toNat := by revert x; decide
  rw [show (0xF001800000000000 : CommandWord) = packFields (.allOnes 4) 0 0 6 0 0 by decide,
    show (0x2001800000000000 : CommandWord) = packFields 2 0 0 6 0 0 by decide, and_packFields, packFields_inj,
    BitVec.and_allOnes, hwave]
  simp

/-- The first reserved row tests the two high bits of OP. -/
theorem and_rsvdLowMask_eq_iff :
    w &&& 0xC000000000000000 = 0x4000000000000000 ↔ 4 ≤ (opField w).toNat ∧ (opField w).toNat ≤ 7 := by
  have hop (x : BitVec 4) : x &&& 12 = 4 ↔ 4 ≤ x.toNat ∧ x.toNat ≤ 7 := by revert x; decide
  rw [show (0xC000000000000000 : CommandWord) = packFields 12 0 0 0 0 0 by decide,
    show (0x4000000000000000 : CommandWord) = packFields 4 0 0 0 0 0 by decide, and_packFields, packFields_inj, hop]
  simp

/-- The second reserved row tests the high bit of OP. -/
theorem and_rsvdHighMask_eq_iff : w &&& 0x8000000000000000 = 0x8000000000000000 ↔ 8 ≤ (opField w).toNat := by
  have hop (x : BitVec 4) : x &&& 8 = 8 ↔ 8 ≤ x.toNat := by revert x; decide
  rw [show (0x8000000000000000 : CommandWord) = packFields 8 0 0 0 0 0 by decide, and_packFields, packFields_inj, hop]
  simp

/-- A word masked by a row's mask is the row's match exactly when its fields are in the row's ranges. -/
theorem and_tableMask_eq_iff (i : Instr) : w &&& i.tableMask = i.tableMatch ↔ MatchesRow w i := by
  cases i with
  | nop => exact and_opMask_eq_iff w 0
  | tick => exact and_opMask_eq_iff w 1
  | noteOn => exact and_opMask_eq_iff w 2
  | noteOnRsvdWave => exact and_rsvdWaveMask_eq_iff w
  | noteOff => exact and_opMask_eq_iff w 3
  | rsvdLow => exact and_rsvdLowMask_eq_iff w
  | rsvdHigh => exact and_rsvdHighMask_eq_iff w

theorem matchesRow_decode : MatchesRow w (decode w) := by
  rcases decode_cases w with ⟨hop, hd⟩ | ⟨hop, hd⟩ | ⟨_, hop, -, hd⟩ | ⟨hop, hwave, hd⟩ | ⟨hop, hd⟩ | ⟨hlow, hhigh, hd⟩ | ⟨hlow, hd⟩
  · rw [hd]; exact hop
  · rw [hd]; exact hop
  · rw [hd]; exact hop
  · rw [hd]; exact ⟨hop, hwave⟩
  · rw [hd]; exact hop
  · rw [hd]; exact ⟨hlow, hhigh⟩
  · rw [hd]; exact hlow

end rows

/-- Settles O7: each row's test of the fields is the decoder's, but for NOTE_ON's, which does not look at WAVE. -/
theorem decodingFollowsTheOpcodeTable : Obligations.DecodingFollowsTheOpcodeTable := by
  refine fun w => ⟨(and_tableMask_eq_iff w _).mpr (matchesRow_decode w), fun i hrow => ?_⟩
  rw [and_tableMask_eq_iff] at hrow
  cases i with
  | nop => rw [decode_of_op_0 w hrow]; exact .inl ⟨rfl, rfl⟩
  | tick => rw [decode_of_op_1 w hrow]; exact .inl ⟨rfl, rfl⟩
  | noteOn =>
    cases hk : Waveform.ofCode (waveField w) with
    | some kind =>
      rw [decode_of_op_2 w hrow ((Waveform.ofCode_eq_some_iff _ _).mp hk)]
      exact .inl ⟨rfl, rfl⟩
    | none =>
      exact .inr ⟨⟨_, _, _, _, _, decode_of_op_2_reserved w hrow ((Waveform.ofCode_eq_none_iff _).mp hk)⟩, rfl⟩
  | noteOnRsvdWave => rw [decode_of_op_2_reserved w hrow.1 hrow.2]; exact .inl ⟨rfl, rfl⟩
  | noteOff => rw [decode_of_op_3 w hrow]; exact .inl ⟨rfl, rfl⟩
  | rsvdLow => rw [decode_of_op_low w hrow.1 hrow.2]; exact .inl ⟨rfl, rfl⟩
  | rsvdHigh => rw [decode_of_op_high w hrow]; exact .inl ⟨rfl, rfl⟩

end Sys2Proof
end

