-- ==== Sys2Proof/Proofs/ListingEncoding.lean ====
section
/-! The assembler against the encoding formula (R83, R84). -/

namespace Sys2Proof.Machine

open Sys2Proof

section operands
variable {ch note : Nat}

theorem assemble_noteOn_of_fits {wave vol inc : Nat} (hch : ch < 16) (hnote : note < 128) (hwave : wave < 8)
    (hvol : vol < 128) (hinc : inc < 2 ^ 32) :
    ∃ w : CommandWord, (Listing.noteOn ch note wave vol inc).assemble = some [w] ∧
      w.toNat = 2 * 2 ^ 60 + ch * 2 ^ 56 + note * 2 ^ 49 + wave * 2 ^ 46 + vol * 2 ^ 39 + inc := by
  refine ⟨_, if_pos ⟨hch, hnote, hwave, hvol, hinc⟩, ?_⟩
  simp only [packFields_toNat, BitVec.ofNat_eq_ofNat, BitVec.toNat_ofNat]
  omega

theorem assemble_noteOff_of_fits (hch : ch < 16) (hnote : note < 128) :
    ∃ w : CommandWord, (Listing.noteOff ch note).assemble = some [w] ∧
      w.toNat = 3 * 2 ^ 60 + ch * 2 ^ 56 + note * 2 ^ 49 := by
  refine ⟨_, if_pos ⟨hch, hnote⟩, ?_⟩
  simp only [packFields_toNat, BitVec.ofNat_eq_ofNat, BitVec.toNat_ofNat]
  omega

end operands

/-- Settles O8: a listing whose operands fit packs them, and every other is turned down by the same test. -/
theorem assemblerFollowsTheEncodingFormula : Obligations.AssemblerFollowsTheEncodingFormula := by
  refine ⟨by decide, by decide, fun ch note wave vol inc => assemble_noteOn_of_fits, ?_,
    fun ch note => assemble_noteOff_of_fits, ?_, ?_, ?_, ?_, by decide⟩
  · intro ch note wave vol inc h
    exact if_neg (by omega)
  · intro ch note h
    exact if_neg (by omega)
  · intro word h
    exact ⟨_, if_pos h, Nat.mod_eq_of_lt h⟩
  · intro word h
    exact if_neg (by omega)
  · intro n h
    exact if_pos h

end Sys2Proof.Machine
end

