-- ==== Sys2Proof/Proofs/ResponseWords.lean ====
section
/-! The fields of a response word (R79, R80), and what every command answers (R79, R201). -/

namespace Sys2Proof.Machine

open Sys2Proof

section responseWord
variable (ign : Bool) (op : BitVec 4) (slot : Nat) (sample : Int)

@[simp] theorem ign_responseWord : ResponseWord.ign (responseWord ign op slot sample) = ign := by
  simp only [ResponseWord.ign, responseWord, BitVec.getLsbD_append, BitVec.getLsbD_ofBool]
  simp

@[simp] theorem reservedBits_responseWord : ResponseWord.reservedBits (responseWord ign op slot sample) = 0 := by
  apply BitVec.eq_of_getLsbD_eq
  intro i hi
  simp only [ResponseWord.reservedBits, responseWord, BitVec.getLsbD_extractLsb', BitVec.getLsbD_append]
  grind

theorem slotBits_responseWord : (responseWord ign op slot sample).extractLsb' 16 8 = BitVec.ofNat 8 slot := by
  apply BitVec.eq_of_getLsbD_eq
  intro i hi
  simp only [responseWord, BitVec.getLsbD_extractLsb', BitVec.getLsbD_append]
  grind

theorem sampleBits_responseWord : (responseWord ign op slot sample).extractLsb' 0 16 = BitVec.ofInt 16 sample :=
  BitVec.extractLsb'_append_eq_right

theorem slot_responseWord {slot : Nat} (h : slot ≤ 255) : ResponseWord.slot (responseWord ign op slot sample) = slot := by
  rw [ResponseWord.slot, slotBits_responseWord]
  exact Nat.mod_eq_of_lt (Nat.lt_succ_of_le h)

theorem sample_responseWord {sample : Int} (hlow : -32767 ≤ sample) (hhigh : sample ≤ 32767) :
    ResponseWord.sample (responseWord ign op slot sample) = sample := by
  rw [ResponseWord.sample, sampleBits_responseWord]
  exact BitVec.toInt_ofInt_eq_self (by decide) (by omega) (by omega)

theorem toNat_sampleBits_responseWord :
    (((responseWord ign op slot sample).extractLsb' 0 16).toNat : Int) = sample % 2 ^ 16 := by
  rw [sampleBits_responseWord, BitVec.toNat_ofInt, Int.toNat_of_nonneg (Int.emod_nonneg _ (by decide))]
  rfl

end responseWord

/-- Settles O10: within the ranges of R80 neither SLOT nor SAMPLE loses anything to its field's width. -/
theorem responseFieldsReadBack : Obligations.ResponseFieldsReadBack := by
  intro ign op slot sample hslot hlow hhigh
  exact ⟨ign_responseWord .., reservedBits_responseWord .., opr_responseWord .., slot_responseWord _ _ _ hslot,
    sample_responseWord _ _ _ hlow hhigh, toNat_sampleBits_responseWord .., fun _ => rfl⟩

/-- Whether a command is ignored (R132, R137). -/
def ignored : Instr → Bool
  | .noteOnRsvdWave _ _ _ _ _ => true
  | .rsvdLow _ => true
  | .rsvdHigh _ => true
  | .nop => false
  | .tick => false
  | .noteOn _ _ _ _ _ => false
  | .noteOff _ _ => false

/-- The ignored words: a reserved OP, or a reserved WAVE in NOTE_ON (R79). -/
theorem ignored_decode_iff (w : CommandWord) :
    ignored (decode w) = true ↔ 4 ≤ (opField w).toNat ∨ (opField w = 2 ∧ 6 ≤ (waveField w).toNat) := by
  rcases decode_cases w with
    ⟨hop, hd⟩ | ⟨hop, hd⟩ | ⟨kind, hop, hwave, hd⟩ | ⟨hop, hwave, hd⟩ | ⟨hop, hd⟩ | ⟨hlow, hhigh, hd⟩ | ⟨hlow, hd⟩
  · simp [hd, ignored, hop]
  · simp [hd, ignored, hop]
  · simp [hd, ignored, hop, hwave, Nat.lt_succ_of_le kind.code_le]
  · simp [hd, ignored, hop, hwave]
  · simp [hd, ignored, hop]
  · simp [hd, ignored, hlow]
  · simp [hd, ignored, Nat.le_trans (by decide : 4 ≤ 8) hlow]

/-- What a command answers: its code, IGN when it is ignored and then nothing else, SAMPLE for TICK alone and SLOT for NOTE_ON
and NOTE_OFF alone (R79). -/
theorem exec_answer (i : Instr) (s : State) :
    ∃ t slot sample, exec i s = .next t ∧
      t.responses = s.responses ++ [responseWord (ignored i) i.opcode slot sample] ∧
      (ignored i = true → t = s.emit (responseWord (ignored i) i.opcode slot sample)) ∧
      (i.opcode ≠ 1 → sample = 0) ∧ (ignored i = true ∨ (i.opcode ≠ 2 ∧ i.opcode ≠ 3) → slot = 0) := by
  cases i with
  | nop | noteOnRsvdWave | rsvdLow | rsvdHigh => exact ⟨_, 0, 0, rfl, rfl, fun _ => rfl, fun _ => rfl, fun _ => rfl⟩
  | tick => exact ⟨_, 0, _, rfl, rfl, nofun, fun h => absurd rfl h, fun _ => rfl⟩
  | noteOn => exact ⟨_, _, 0, rfl, rfl, nofun, fun _ => rfl, by simp [ignored, Instr.opcode]⟩
  | noteOff => exact ⟨_, _, 0, rfl, rfl, nofun, fun _ => rfl, by simp [ignored, Instr.opcode]⟩

/-- Settles O11: the response of the word's command, its fields read back. -/
theorem everyCommandAnswersOnce : Obligations.EveryCommandAnswersOnce := by
  intro w s
  obtain ⟨t, slot, sample, hexec, hresponses, hignored, hsample, hslot⟩ := exec_answer (decode w) s
  rw [opcode_decode] at hresponses hignored hsample hslot
  refine ⟨t, _, hexec, hresponses, opr_responseWord .., reservedBits_responseWord .., ?_, ?_, ?_, ?_⟩
  · rw [ign_responseWord, ignored_decode_iff]
  · rw [ign_responseWord]
    exact hignored
  · intro h
    rw [hsample h]
    exact sample_responseWord _ _ _ (by decide) (by decide)
  · rw [ign_responseWord]
    intro h
    rw [hslot h]
    exact slot_responseWord _ _ _ (by decide)

end Sys2Proof.Machine
end

