-- ==== Sys2Proof/Proofs/ChannelSelection.lean ====
section
/-! The channel NOTE_ON and NOTE_OFF act in (R77). -/

namespace Sys2Proof.Machine

open Sys2Proof Sys2Proof.Rules

theorem chan_eq_channelOf (cfg : Config) (ch : BitVec 4) : chan cfg ch = channelOf cfg ch := by
  unfold chan channelOf
  cases cfg.poolMode <;> rfl

theorem chan_of_flat {cfg : Config} (h : cfg.poolMode = .flat) (ch : BitVec 4) : chan cfg ch = 0 := by
  rw [chan, h]

theorem chan_of_multi {cfg : Config} (h : cfg.poolMode = .multi) (ch : BitVec 4) : chan cfg ch = ch.toNat := by
  rw [chan, h]

/-- The slot NOTE_ON takes holds the loaded voice, where the file has the channel's slots. -/
theorem noteOn_loads_chan {s t : State} {ch : BitVec 4} {note : BitVec 7} {wave : Waveform} {vol : BitVec 7}
    {inc : CycleFraction} (hlegal : s.cfg.legal = true) (hshaped : s.shaped = true)
    (h : exec (.noteOn ch note wave vol inc) s = .next t) :
    t.slot? (chan s.cfg ch) (alloc (s.row (chan s.cfg ch))) = some (Voice.load note wave vol inc) := by
  cases h
  rw [State.emit_slot?, noteOn_slot?, if_pos ⟨rfl, rfl, State.row_ne_nil_of_shaped hlegal hshaped (chan_lt s.cfg ch)⟩]

/-- NOTE_ON and NOTE_OFF write the row of their channel alone. -/
theorem row_of_ne_chan {s t : State} {ch : BitVec 4} {note : BitVec 7} {wave : Waveform} {vol : BitVec 7}
    {inc : CycleFraction} (h : exec (.noteOn ch note wave vol inc) s = .next t ∨ exec (.noteOff ch note) s = .next t)
    {c : Nat} (hc : c ≠ chan s.cfg ch) : t.row c = s.row c := by
  rcases h with h | h
  all_goals
    cases h
    rw [State.emit_row, State.withRow_row, if_neg (fun hrow => hc hrow.1)]

/-- Settles O34: both commands see CH through `chan` alone, and write that row alone. -/
theorem channelFieldSelectsTheChannel : Obligations.ChannelFieldSelectsTheChannel := by
  refine ⟨chan_eq_channelOf, ?_, ?_, ?_, ?_, ?_⟩
  · intro s ch note wave vol inc hlegal hshaped
    have hload := noteOn_loads_chan hlegal hshaped (exec_noteOn s ch note wave vol inc)
    rw [← chan_eq_channelOf]
    exact ⟨_, _, _, exec_noteOn .., hload, rfl, rfl, rfl, rfl, rfl⟩
  · intro s ch note
    refine ⟨_, exec_noteOff .., fun j v hv hactive hnote => ?_⟩
    rw [← chan_eq_channelOf] at hv
    have hsilent := noteOff_none_sounds (exec_noteOff s ch note) v (List.mem_of_getElem? hv)
    simp [Voice.sounds, hactive, hnote] at hsilent
  · intro s ch ch' note wave vol inc hmode
    simp only [exec_noteOn, exec_noteOff, chan_of_flat hmode, and_self]
  · intro s t ch note wave vol inc hmode h c hc
    exact row_of_ne_chan h (chan_of_multi hmode ch ▸ hc)
  · intro s ch hshaped
    rw [← chan_eq_channelOf, (s.shaped_iff.mp hshaped).1]
    exact chan_lt s.cfg ch

end Sys2Proof.Machine
end

