-- ==== Sys2Proof/Proofs/TickStream.lean ====
section
/-! A stream of TICK commands (R84): what one TICK does to count, responses and phases, added up over the stream. -/

namespace Sys2Proof.Machine

open Sys2Proof

/-- `Ticked n s t`: the block of `t` is that of `s` after `n` TICK commands, as far as TICK, the number of responses, ACTIVE
and PHASE tell (R31, R79, R167). -/
structure Ticked (n : Nat) (s t : State) : Prop where
  tick : t.tick.toNat = (s.tick.toNat + n) % 2 ^ 32
  responses : t.responses.length = s.responses.length + n
  slots : ∀ c j v, s.slot? c j = some v → ∃ v', t.slot? c j = some v' ∧ v'.active = v.active ∧
    v'.phase.toNat = if v.active = true then (v.phase.toNat + n * v.inc.toNat) % 2 ^ 32 else v.phase.toNat

theorem Ticked.refl (s : State) : Ticked 0 s s where
  tick := (Nat.mod_eq_of_lt s.tick.isLt).symm
  responses := rfl
  slots c j v hv := by
    refine ⟨v, hv, rfl, ?_⟩
    rw [Nat.zero_mul, Nat.add_zero, Nat.mod_eq_of_lt v.phase.isLt, ite_self]

/-- One TICK and then `n` are `n + 1`. -/
theorem Ticked.of_advance {n : Nat} {s t : State} {r : ResponseWord} (h : Ticked n (s.advance.emit r) t) :
    Ticked (n + 1) s t where
  tick := by
    rw [h.tick, State.emit_tick, State.advance_tick, BitVec.toNat_add, Nat.mod_add_mod, Nat.add_assoc, Nat.add_comm n]
    rfl
  responses := by
    rw [h.responses, State.emit_responses, State.advance_responses, List.length_append, Nat.add_assoc, Nat.add_comm n]
    rfl
  slots c j v hv := by
    have hadvanced : (s.advance.emit r).slot? c j = some (v.advance s.cfg s.tick) := by
      rw [State.emit_slot?, State.advance_slot?, hv, Option.map_some]
    obtain ⟨v', hv', hactive, hphase⟩ := h.slots c j _ hadvanced
    rw [Voice.advance_active] at hactive
    refine ⟨v', hv', hactive, hphase.trans ?_⟩
    rw [Voice.advance_active, Voice.advance_inc, Voice.advance_phase]
    split
    · rw [BitVec.toNat_add, Nat.mod_add_mod, Nat.add_assoc, Nat.succ_mul, Nat.add_comm v.inc.toNat]
    · rfl

/-- With a TICK alone waiting first, a step advances the block and answers one response. -/
theorem step_of_tick_waiting {s : State} {w : CommandWord} {rest : List CommandWord} (hr : s.resetLine = none)
    (he : s.eventStream = []) (hc : s.clockStream = w :: rest) (hop : opField w = 1) :
    ∃ r, step s = .next (({ s with clockStream := rest } : State).advance.emit r) := by
  rw [step_of_accept hr (accept_of_clock_only hc he), decode_of_op_1 w hop, exec_tick]
  exact ⟨_, rfl⟩

/-- A run over a stream of TICK commands empties it, and ticks the block as often as the stream is long. -/
theorem run_tickStream {ws : List CommandWord} {s : State} (hc : s.clockStream = ws) (hr : s.resetLine = none)
    (he : s.eventStream = []) (hops : ∀ w ∈ ws, opField w = 1) :
    ∃ t, Sys2Proof.core.run ws.length s = .next t ∧ t.clockStream = [] ∧ t.eventStream = [] ∧ Ticked ws.length s t := by
  induction ws generalizing s with
  | nil => exact ⟨s, rfl, hc, he, .refl s⟩
  | cons w rest ih =>
    obtain ⟨hop, hrest⟩ := List.forall_mem_cons.mp hops
    obtain ⟨r, hstep⟩ := step_of_tick_waiting hr he hc hop
    obtain ⟨t, hrun, hclock, hevent, hticked⟩ :=
      ih (s := ({ s with clockStream := rest } : State).advance.emit r) rfl hr he hrest
    obtain ⟨htick, hresponses, hslots⟩ := hticked.of_advance
    exact ⟨t, (core_run_succ _ hstep).trans hrun, hclock, hevent, htick, hresponses, hslots⟩

/-- Settles O29, by induction on the stream. -/
theorem tickStreamAdvancesEveryActivePhase : Obligations.TickStreamAdvancesEveryActivePhase := by
  intro s hr he hops
  obtain ⟨t, hrun, hclock, hevent, hticked⟩ := run_tickStream rfl hr he hops
  exact ⟨t, hrun, hclock, hevent, hticked.tick, hticked.responses, hticked.slots⟩

end Sys2Proof.Machine
end

