-- ==== Sys2Proof/Proofs/OscillatorWaveforms.lean ====
section
/-! The six waveforms (R100 to R108): each threshold is a test of the top bits of the phase, and the triangle's level is the
scaled distance of the phase from the nearer end of the cycle. -/

namespace Sys2Proof.Machine

open Sys2Proof

theorem highOrLow_decide (P : Prop) [Decidable P] : highOrLow (decide P) = if P then 32767 else -32767 := by
  by_cases h : P <;> simp [h, highOrLow, fullScale]

theorem highOrLow_eq_high_iff (high : Bool) : highOrLow high = 32767 ↔ high = true := by cases high <;> decide

theorem highOrLow_eq_or (high : Bool) : highOrLow high = 32767 ∨ highOrLow high = -32767 := by cases high <;> decide

/-- The top bits of a phase, from bit `k` up, are 0 exactly below `2 ^ k`. -/
theorem extractLsb'_top_eq_zero_iff (p : CycleFraction) {k width : Nat} (hk : k + width = 32) :
    p.extractLsb' k width = 0 ↔ p.toNat < 2 ^ k := by
  have hquotient : p.toNat / 2 ^ k < 2 ^ width := Nat.div_lt_of_lt_mul (by rw [← Nat.pow_add, hk]; exact p.isLt)
  rw [← BitVec.toNat_inj, toNat_extractLsb'_eq_div_mod, Nat.mod_eq_of_lt hquotient, BitVec.ofNat_eq_ofNat,
    BitVec.toNat_ofNat, Nat.zero_mod, Nat.div_eq_zero_iff_lt (Nat.two_pow_pos k)]

/-- A waveform that is high below the threshold `2 ^ k`: by the value of the phase, and by its top bits (R101 to R103). -/
theorem highOrLow_below_threshold (p : CycleFraction) {k width : Nat} (hk : k + width = 32) {threshold : CycleFraction}
    (hthreshold : threshold.toNat = 2 ^ k) :
    highOrLow (decide (p < threshold)) = (if p.toNat < 2 ^ k then 32767 else -32767) ∧
    highOrLow (decide (p < threshold)) = (if p.extractLsb' k width = 0 then 32767 else -32767) := by
  simp only [highOrLow_decide, BitVec.lt_def, hthreshold, extractLsb'_top_eq_zero_iff p hk, and_self]

/-- Settles O12: each of the three waveforms is high below a power of two. -/
theorem squareAndPulsesFollowTheirThresholds : Obligations.SquareAndPulsesFollowTheirThresholds := by
  intro p x
  obtain ⟨hsquare, hsquareBits⟩ := highOrLow_below_threshold p (k := 31) (width := 1) rfl (threshold := 0x80000000) rfl
  obtain ⟨hpulse25, hpulse25Bits⟩ := highOrLow_below_threshold p (k := 30) (width := 2) rfl (threshold := 0x40000000) rfl
  obtain ⟨hpulse12, hpulse12Bits⟩ := highOrLow_below_threshold p (k := 29) (width := 3) rfl (threshold := 0x20000000) rfl
  exact ⟨hsquare, hsquareBits, hpulse25, hpulse25Bits, hpulse12, hpulse12Bits⟩

/-- The level is that of the distance to the nearer end of the cycle (R104, R107). -/
theorem triLevel_eq_min (p : CycleFraction) : triLevel p = 30 * min p.toNat (2 ^ 32 - p.toNat) / 2 ^ 32 := by
  have hrising : p < 0x80000000 ↔ p.toNat < 2 ^ 31 := Iff.rfl
  have hbound := p.isLt
  simp only [triLevel, hrising]
  split
  · rw [min_eq_left (by omega)]
  · rw [min_eq_right (by omega)]

theorem triLevel_of_rising {p : CycleFraction} (h : p.toNat ≤ 2 ^ 31) : triLevel p = 30 * p.toNat / 2 ^ 32 := by
  rw [triLevel_eq_min, min_eq_left (by omega)]

theorem triLevel_of_falling {p : CycleFraction} (h : 2 ^ 31 ≤ p.toNat) :
    triLevel p = 30 * (2 ^ 32 - p.toNat) / 2 ^ 32 := by
  rw [triLevel_eq_min, min_eq_right (by omega)]

/-- The level is 15 at phase 0.5 only (R104). -/
theorem triLevel_eq_15_iff (p : CycleFraction) : triLevel p = 15 ↔ p = 0x80000000 := by
  have hhalf : p = 0x80000000 ↔ p.toNat = 2 ^ 31 := BitVec.toNat_inj.symm
  rw [hhalf]
  rcases le_total p.toNat (2 ^ 31) with h | h
  · rw [triLevel_of_rising h]
    omega
  · rw [triLevel_of_falling h]
    omega

/-- Settles O13: the level is `triLevel`. -/
theorem triangleIsTheScaledExactFloor : Obligations.TriangleIsTheScaledExactFloor := by
  intro p x
  have hsample : osc .triangle p x = ((triLevel p * 32767 / 15 : Nat) : Int) := rfl
  have hlevel := triLevel_le p
  rw [hsample]
  refine ⟨triLevel p, fun h => ?_, fun h => ?_, triLevel_eq_15_iff p, hlevel, by omega, by omega, by omega, ?_⟩
  · rw [triLevel_of_rising h.le]
    omega
  · rw [triLevel_of_falling h]
    omega
  · interval_cases triLevel p <;> rfl

/-- The falling half mirrors the rising half (R107 (b)). -/
theorem triLevel_neg {p : CycleFraction} (h : 0 < p.toNat) : triLevel (-p) = triLevel p := by
  have hneg : (-p).toNat = 2 ^ 32 - p.toNat := by
    rw [BitVec.toNat_neg, Nat.mod_eq_of_lt (by omega)]
  rw [triLevel_eq_min, triLevel_eq_min, hneg, Nat.sub_sub_self p.isLt.le, min_comm]

/-- Each level below 15 begins in the rising half, and the phase after its beginning still has it (R107 (c)). -/
theorem exists_rising_of_level {level : Nat} (h : level < 15) :
    ∃ p : CycleFraction, 0 < p.toNat ∧ p.toNat < 2 ^ 31 ∧ triLevel p = level := by
  have hphase : (BitVec.ofNat 32 (level * 2 ^ 32 / 30 + 1)).toNat = level * 2 ^ 32 / 30 + 1 :=
    (BitVec.toNat_ofNat _ _).trans (Nat.mod_eq_of_lt (by omega))
  refine ⟨BitVec.ofNat 32 (level * 2 ^ 32 / 30 + 1), by omega, by omega, ?_⟩
  rw [triLevel_of_rising (by omega), hphase]
  omega

/-- Settles O14: the falling half's levels are the rising half's, mirrored, and 15 at its beginning. -/
theorem triangleIsMonotoneAndMirrored : Obligations.TriangleIsMonotoneAndMirrored := by
  refine ⟨fun p q hpq hq => ?_, fun p q hpq hp => ?_, fun p => triLevel_neg, fun level h => ?_, fun level h => ?_⟩
  · rw [triLevel_of_rising (hpq.trans hq.le), triLevel_of_rising hq.le]
    exact Nat.div_le_div_right (Nat.mul_le_mul_left 30 hpq)
  · rw [triLevel_of_falling hp, triLevel_of_falling (hp.trans hpq)]
    exact Nat.div_le_div_right (Nat.mul_le_mul_left 30 (Nat.sub_le_sub_left hpq _))
  · obtain ⟨p, -, hrising, hlevel⟩ := exists_rising_of_level h
    exact ⟨p, hrising, hlevel⟩
  · rcases h.lt_or_eq with hlt | rfl
    · obtain ⟨p, hpos, hrising, hlevel⟩ := exists_rising_of_level hlt
      refine ⟨-p, ?_, (triLevel_neg hpos).trans hlevel⟩
      rw [BitVec.toNat_neg]
      omega
    · exact ⟨0x80000000, Nat.le_refl _, (triLevel_eq_15_iff _).mpr rfl⟩

/-- Every waveform but the triangle has the two values of `highOrLow` (R101 to R103, R108). -/
theorem osc_eq_highOrLow {wave : Waveform} (h : wave ≠ .triangle) (p : CycleFraction) (x : Lfsr) :
    ∃ high, osc wave p x = highOrLow high := by
  cases wave with
  | triangle => exact absurd rfl h
  | square | pulse25 | pulse12_5 | noiseLong | noiseShort => exact ⟨_, rfl⟩

/-- A noise sample is high exactly when the register is odd (R108). -/
theorem noiseOut_eq_high_iff (x : Lfsr) : noiseOut x = 32767 ↔ x.toNat % 2 = 1 := by
  rw [noiseOut, highOrLow_eq_high_iff, BitVec.getLsbD, Nat.testBit_zero, decide_eq_true_iff]

/-- Settles O15: the triangle by its range, every other waveform by its two values. -/
theorem oscillatorSamplesAreBounded : Obligations.OscillatorSamplesAreBounded := by
  intro wave p x
  have hnoise : wave = .noiseLong ∨ wave = .noiseShort → (osc wave p x = 32767 ↔ x.toNat % 2 = 1) := by
    rintro (rfl | rfl) <;> exact noiseOut_eq_high_iff x
  by_cases h : wave = .triangle
  · subst h
    obtain ⟨hlow, hhigh⟩ : 0 ≤ osc .triangle p x ∧ osc .triangle p x ≤ 32767 := triangle_range p
    exact ⟨by omega, hhigh, fun _ => hlow, fun hne => absurd rfl hne, hnoise⟩
  · obtain ⟨high, hosc⟩ := osc_eq_highOrLow h p x
    have hlevels : osc wave p x = 32767 ∨ osc wave p x = -32767 := hosc ▸ highOrLow_eq_or high
    exact ⟨by omega, by omega, fun heq => absurd heq h, fun _ => hlevels, hnoise⟩

end Sys2Proof.Machine
end

