-- ==== Sys2Proof/Proofs/NoiseSteps.lean ====
section
/-! One step of the noise registers (R109, R110): it shifts the feedback bit in, it is additive over XOR, and so a permutation
of the nonzero values (R112). -/

namespace Sys2Proof.Machine

open Sys2Proof

theorem getLsbD_lfsrShift_of_lt (tap : Nat) (x : Lfsr) {i : Nat} (hi : i < 14) :
    (lfsrShift tap x).getLsbD i = x.getLsbD (i + 1) := by
  rw [getLsbD_lfsrShift tap x i (by omega), if_neg hi.ne]

theorem getLsbD_lfsrShift_14 (tap : Nat) (x : Lfsr) : (lfsrShift tap x).getLsbD 14 = (x.getLsbD 0 ^^ x.getLsbD tap) := by
  rw [getLsbD_lfsrShift tap x 14 (by decide), if_pos rfl]

/-- Settles O16: both steps are shifts, of the taps 1 and 6. -/
theorem noiseStepsShiftInTheFeedbackBit : Obligations.NoiseStepsShiftInTheFeedbackBit := fun x =>
  ⟨fun _ hi => ⟨getLsbD_lfsrShift_of_lt 1 x hi, getLsbD_lfsrShift_of_lt 6 x hi⟩, getLsbD_lfsrShift_14 1 x,
    getLsbD_lfsrShift_14 6 x⟩

theorem lfsrShift_zero (tap : Nat) : lfsrShift tap 0 = 0 := by
  simp [lfsrShift]

/-- A shift is additive: each of its bits is a bit or the XOR of two. -/
theorem lfsrShift_xor (tap : Nat) (x y : Lfsr) : lfsrShift tap (x ^^^ y) = lfsrShift tap x ^^^ lfsrShift tap y := by
  refine BitVec.eq_of_getLsbD_eq fun i hi => ?_
  simp only [BitVec.getLsbD_xor, getLsbD_lfsrShift _ _ i hi]
  split
  · simp only [Bool.xor_assoc, Bool.xor_left_comm]
  · rfl

/-- Two values of one step differ by the step of their difference, which is 0 only of 0. -/
theorem lfsrShift_injective {tap : Nat} (htap : 0 < tap) : Function.Injective (lfsrShift tap) := by
  intro x y h
  by_contra hne
  refine lfsrShift_ne_zero htap (mt BitVec.xor_eq_zero_iff.mp hne) ?_
  rw [lfsrShift_xor, h]
  exact BitVec.xor_self

theorem exists_lfsrShift_eq {tap : Nat} (htap : 0 < tap) {y : Lfsr} (hy : y ≠ 0) : ∃ x, x ≠ 0 ∧ lfsrShift tap x = y := by
  obtain ⟨x, rfl⟩ := Finite.surjective_of_injective (lfsrShift_injective htap) y
  exact ⟨x, fun hx => hy (hx ▸ lfsrShift_zero tap), rfl⟩

/-- Settles O17: an additive step that is 0 only of 0 is injective, and so surjective on the finitely many values. -/
theorem noiseStepsPermuteTheNonzeroValues : Obligations.NoiseStepsPermuteTheNonzeroValues := by
  have hlong : 0 < 1 := by decide
  have hshort : 0 < 6 := by decide
  exact ⟨fun _ _ h => lfsrShift_injective hlong h, fun _ _ h => lfsrShift_injective hshort h,
    fun _ hx => ⟨lfsrShift_ne_zero hlong hx, lfsrShift_ne_zero hshort hx⟩,
    fun _ hy => ⟨exists_lfsrShift_eq hlong hy, exists_lfsrShift_eq hshort hy⟩⟩

end Sys2Proof.Machine
end

