-- ==== Sys2Proof/Proofs/NoisePeriods.lean ====
section
/-! The periods of the noise registers (R113). A register's stream of output bits obeys a linear recurrence of order 15, so
that iterates of a step add up to later iterates; squaring such a sum doubles its exponents, as in any ring of
characteristic 2, and the periods follow without running the steps. -/

namespace Sys2Proof.Machine

open Sys2Proof Function

/-- Bit `i` of a register is its output bit `i` steps later. -/
theorem getLsbD_iterate_lfsrShift (tap : Nat) (x : Lfsr) (n : Nat) {i : Nat} (hi : i < 15) :
    ((lfsrShift tap)^[n] x).getLsbD i = ((lfsrShift tap)^[n + i] x).getLsbD 0 := by
  induction i generalizing n with
  | zero => rfl
  | succ i ih =>
    rw [← getLsbD_lfsrShift_of_lt tap _ (by omega), ← iterate_succ_apply' (lfsrShift tap), ih (n + 1) (by omega),
      Nat.add_right_comm, Nat.add_assoc]

theorem iterate_lfsrShift_xor (tap n : Nat) (x y : Lfsr) :
    (lfsrShift tap)^[n] (x ^^^ y) = (lfsrShift tap)^[n] x ^^^ (lfsrShift tap)^[n] y :=
  Semiconj₂.iterate (lfsrShift_xor tap) n x y

/-- `IterateSum tap m a b`: `m` steps of any register are the sum of `a` and of `b` steps of it. -/
def IterateSum (tap m a b : Nat) : Prop :=
  ∀ x, (lfsrShift tap)^[m] x = (lfsrShift tap)^[a] x ^^^ (lfsrShift tap)^[b] x

/-- The feedback rule for whole registers: 15 steps add the register and its `tap`-th step (R109, R110). -/
theorem iterateSum_15 {tap : Nat} (htap : tap < 15) : IterateSum tap 15 0 tap := by
  intro x
  refine BitVec.eq_of_getLsbD_eq fun i hi => ?_
  have hout (n : Nat) {j : Nat} (hj : j < 15) := getLsbD_iterate_lfsrShift tap x n hj
  calc ((lfsrShift tap)^[15] x).getLsbD i
      = ((lfsrShift tap)^[i + 1] x).getLsbD 14 := by
        rw [hout 15 hi, hout (i + 1) (by decide), Nat.add_assoc, Nat.add_comm i]
    _ = (((lfsrShift tap)^[i] x).getLsbD 0 ^^ ((lfsrShift tap)^[i] x).getLsbD tap) := by
        rw [iterate_succ_apply', getLsbD_lfsrShift_14]
    _ = ((lfsrShift tap)^[0] x ^^^ (lfsrShift tap)^[tap] x).getLsbD i := by
        rw [BitVec.getLsbD_xor, hout 0 hi, hout tap hi, hout i htap, Nat.zero_add, Nat.add_comm i]

theorem IterateSum.add_left {tap m a b : Nat} (h : IterateSum tap m a b) (n : Nat) :
    IterateSum tap (n + m) (n + a) (n + b) := by
  intro x
  simp only [iterate_add_apply, h x, iterate_lfsrShift_xor]

/-- Squaring: the two mixed terms are equal and cancel. -/
theorem IterateSum.two_mul {tap m a b : Nat} (h : IterateSum tap m a b) : IterateSum tap (2 * m) (2 * a) (2 * b) := by
  intro x
  simp only [Nat.two_mul]
  rw [h.add_left m x, Nat.add_comm m a, Nat.add_comm m b, h.add_left a x, h.add_left b x, Nat.add_comm b a,
    BitVec.xor_assoc, ← BitVec.xor_assoc _ _ (_^[b + b] x), BitVec.xor_self, BitVec.zero_xor]

theorem IterateSum.mul_two_pow {tap m a b : Nat} (h : IterateSum tap m a b) (k : Nat) :
    IterateSum tap (m * 2 ^ k) (a * 2 ^ k) (b * 2 ^ k) := by
  induction k with
  | zero => simpa only [Nat.pow_zero, Nat.mul_one] using h
  | succ k ih => simpa only [Nat.pow_succ', Nat.mul_left_comm] using ih.two_mul

/-- The feedback rule, squared `k` times and `n` steps later. -/
theorem iterateSum_feedback {tap : Nat} (htap : tap < 15) (k n : Nat) :
    IterateSum tap (n + 15 * 2 ^ k) n (n + tap * 2 ^ k) := by
  simpa only [Nat.zero_mul, Nat.add_zero] using ((iterateSum_15 htap).mul_two_pow k).add_left n

theorem lfsr_xor_left_comm (x y z : Lfsr) : x ^^^ (y ^^^ z) = y ^^^ (x ^^^ z) := by
  ac_rfl

theorem lfsr_xor_cancel_left (x y : Lfsr) : x ^^^ (x ^^^ y) = y := by
  rw [← BitVec.xor_assoc, BitVec.xor_self, BitVec.zero_xor]

/-- The feedback rule takes 93 steps apart into iterates that cancel in pairs, all but the 0th. -/
theorem iterate_lfsrStepShort_93 (x : Lfsr) : lfsrStepShort^[93] x = x := by
  have hsum : ∀ k n, IterateSum 6 (n + 15 * 2 ^ k) n (n + 6 * 2 ^ k) := iterateSum_feedback (by decide)
  have h93 : IterateSum 6 93 33 57 := hsum 2 33
  have h57 : IterateSum 6 57 27 39 := hsum 1 27
  have h39 : IterateSum 6 39 9 21 := hsum 1 9
  have h33 : IterateSum 6 33 3 15 := hsum 1 3
  have h27 : IterateSum 6 27 12 18 := hsum 0 12
  have h21 : IterateSum 6 21 6 12 := hsum 0 6
  have h18 : IterateSum 6 18 3 9 := hsum 0 3
  have h15 : IterateSum 6 15 0 6 := hsum 0 0
  change (lfsrShift 6)^[93] x = (lfsrShift 6)^[0] x
  rw [h93, h57, h39, h33, h27, h21, h18, h15]
  simp only [BitVec.xor_assoc, BitVec.xor_comm, lfsr_xor_left_comm, lfsr_xor_cancel_left, BitVec.xor_self]

/-- The long rule for the exponents that are powers of two. -/
theorem iterateSum_two_pow (k : Nat) : IterateSum 1 (2 ^ (k + 4)) (2 ^ k) (2 ^ (k + 1)) := by
  have h16 : IterateSum 1 (2 ^ 4) (2 ^ 0) (2 ^ 1) := iterateSum_feedback (by decide) 0 1
  simpa only [← Nat.pow_add, Nat.add_comm, Nat.zero_add, Nat.add_zero] using h16.mul_two_pow k

/-- Squaring 15 times gives the step back. -/
theorem iterate_lfsrStepLong_two_pow_15 (x : Lfsr) : lfsrStepLong^[2 ^ 15] x = lfsrStepLong x := by
  have hsum := fun k => iterateSum_two_pow k x
  change (lfsrShift 1)^[2 ^ 15] x = (lfsrShift 1)^[2 ^ 0] x
  rw [hsum 11, hsum 7, hsum 8, hsum 3, hsum 5, hsum 0, hsum 1, hsum 2]
  simp only [Nat.reduceAdd, BitVec.xor_assoc, BitVec.xor_comm, lfsr_xor_left_comm, lfsr_xor_cancel_left, BitVec.xor_self,
    BitVec.zero_xor]

theorem iterate_lfsrStepLong_32767 (x : Lfsr) : lfsrStepLong^[32767] x = x := by
  refine lfsrShift_injective (tap := 1) (by decide) ?_
  exact (iterate_succ_apply' lfsrStepLong 32767 x).symm.trans (iterate_lfsrStepLong_two_pow_15 x)

/-- A period is the least one if no quotient of it by one of its prime factors is a period. -/
theorem minimalPeriod_eq_of_prime_quotients {α : Type} {f : α → α} {x : α} {n : Nat} {ps : List Nat} (hn : ps.prod = n)
    (hprimes : ∀ p ∈ ps, p.Prime) (h : IsPeriodicPt f n x) (hquotients : ∀ p ∈ ps, f^[n / p] x ≠ x) :
    minimalPeriod f x = n := by
  obtain ⟨k, hk⟩ := h.minimalPeriod_dvd
  by_contra hne
  obtain ⟨p, hp, l, rfl⟩ := Nat.exists_prime_and_dvd (n := k) (fun hone => hne (by rw [hk, hone, Nat.mul_one]))
  have hfactor : n = p * (minimalPeriod f x * l) := by rw [hk, Nat.mul_left_comm]
  have hmem : p ∈ ps :=
    mem_list_primes_of_dvd_prod hp.prime (fun q hq => (hprimes q hq).prime) (hn ▸ ⟨_, hfactor⟩)
  refine hquotients p hmem (isPeriodicPt_iff_minimalPeriod_dvd.mpr ⟨l, ?_⟩)
  rw [hfactor, Nat.mul_div_cancel_left _ hp.pos]

theorem minimalPeriod_lfsrStepShort_seed : minimalPeriod lfsrStepShort (0x0001 : Lfsr) = 93 := by
  have hquotients : ∀ p ∈ [3, 31], lfsrStepShort^[93 / p] (0x0001 : Lfsr) ≠ 0x0001 := by decide
  exact minimalPeriod_eq_of_prime_quotients rfl (by norm_num) (iterate_lfsrStepShort_93 _) hquotients

/-- Settles O18: 93 = 3 * 31 is a period of every value, and the least one of the seed. -/
theorem shortNoiseRepeatsAfter93Steps : Obligations.ShortNoiseRepeatsAfter93Steps := by
  refine ⟨iterate_lfsrStepShort_93, fun k hpos hlt => ?_⟩
  exact not_isPeriodicPt_of_pos_of_lt_minimalPeriod hpos.ne' (minimalPeriod_lfsrStepShort_seed ▸ hlt)

/-- 4681, 1057 and 217 steps do not return to the seed: the feedback rule reduces them to at most 105. -/
theorem iterate_lfsrStepLong_seed_ne_of_prime_quotient :
    ∀ p ∈ [7, 31, 151], lfsrStepLong^[32767 / p] (0x0001 : Lfsr) ≠ 0x0001 := by
  have hsum : ∀ k n, IterateSum 1 (n + 15 * 2 ^ k) n (n + 1 * 2 ^ k) := iterateSum_feedback (by decide)
  have h4681 : IterateSum 1 4681 841 1097 := hsum 8 841
  have h1097 : IterateSum 1 1097 137 201 := hsum 6 137
  have h1057 : IterateSum 1 1057 97 161 := hsum 6 97
  have h841 : IterateSum 1 841 361 393 := hsum 5 361
  have h393 : IterateSum 1 393 153 169 := hsum 4 153
  have h361 : IterateSum 1 361 121 137 := hsum 4 121
  have h217 : IterateSum 1 217 97 105 := hsum 3 97
  have h201 : IterateSum 1 201 81 89 := hsum 3 81
  have h169 : IterateSum 1 169 49 57 := hsum 3 49
  have h161 : IterateSum 1 161 41 49 := hsum 3 41
  have h153 : IterateSum 1 153 33 41 := hsum 3 33
  have h137 : IterateSum 1 137 17 25 := hsum 3 17
  have h121 : IterateSum 1 121 1 9 := hsum 3 1
  simp only [List.forall_mem_cons, Nat.reduceDiv]
  change (lfsrShift 1)^[4681] 0x0001 ≠ 0x0001 ∧ (lfsrShift 1)^[1057] 0x0001 ≠ 0x0001 ∧
    (lfsrShift 1)^[217] 0x0001 ≠ 0x0001 ∧ _
  rw [h4681, h1097, h1057, h841, h393, h361, h217, h201, h169, h161, h153, h137, h121]
  decide

theorem minimalPeriod_lfsrStepLong_seed : minimalPeriod lfsrStepLong (0x0001 : Lfsr) = 32767 :=
  minimalPeriod_eq_of_prime_quotients rfl (by norm_num) (iterate_lfsrStepLong_32767 _)
    iterate_lfsrStepLong_seed_ne_of_prime_quotient

theorem card_univ_erase_zero : (Finset.univ.erase (0 : Lfsr)).card = 32767 := by
  rw [Finset.card_erase_of_mem (Finset.mem_univ _), Finset.card_univ, ← FinEnum.card_eq_fintypeCard]
  rfl

theorem iterate_lfsrStepLong_ne_zero {x : Lfsr} (hx : x ≠ 0) (k : Nat) : lfsrStepLong^[k] x ≠ 0 := by
  induction k with
  | zero => exact hx
  | succ k ih =>
    rw [iterate_succ_apply']
    exact lfsrShift_ne_zero (by decide) ih

/-- The seed's cycle holds as many values as there are nonzero ones. -/
theorem exists_iterate_lfsrStepLong_eq {x : Lfsr} (hx : x ≠ 0) : ∃ k < 32767, lfsrStepLong^[k] (0x0001 : Lfsr) = x := by
  have hmaps : Set.MapsTo (lfsrStepLong^[·] (0x0001 : Lfsr)) (Finset.range 32767) (Finset.univ.erase (0 : Lfsr)) :=
    fun k _ => Finset.mem_coe.mpr (Finset.mem_erase.mpr ⟨iterate_lfsrStepLong_ne_zero (by decide) k, Finset.mem_univ _⟩)
  have hinj : Set.InjOn (lfsrStepLong^[·] (0x0001 : Lfsr)) (Finset.range 32767) := by
    rw [Finset.coe_range, ← minimalPeriod_lfsrStepLong_seed]
    exact iterate_injOn_Iio_minimalPeriod
  have hcard : (Finset.univ.erase (0 : Lfsr)).card ≤ (Finset.range 32767).card := by
    rw [card_univ_erase_zero, Finset.card_range]
  obtain ⟨k, hk, hreach⟩ := Finset.surjOn_of_injOn_of_card_le _ hmaps hinj hcard
    (Finset.mem_coe.mpr (Finset.mem_erase.mpr ⟨hx, Finset.mem_univ x⟩))
  exact ⟨k, Finset.mem_range.mp (Finset.mem_coe.mp hk), hreach⟩

/-- Settles O19: 32767 = 7 * 31 * 151 is the least period of the seed, so its cycle holds all the nonzero values. -/
theorem longNoiseHasOneFullCycle : Obligations.LongNoiseHasOneFullCycle := by
  refine ⟨iterate_lfsrStepLong_32767 _, fun k hpos hlt => ?_, fun x hx => exists_iterate_lfsrStepLong_eq hx⟩
  exact not_isPeriodicPt_of_pos_of_lt_minimalPeriod hpos.ne' (minimalPeriod_lfsrStepLong_seed ▸ hlt)

end Sys2Proof.Machine
end

