-- ==== Sys2Proof/Proofs/CommandsThatOnlyAnswer.lean ====
section
/-! The commands that read and write nothing of the block: NOP (R131) and the reserved command codes (R137, R201). -/

namespace Sys2Proof.Machine

open Sys2Proof Sys2Proof.Rules

/-- Settles O30. -/
theorem nopOnlyAnswersZero : Obligations.NopOnlyAnswersZero := by
  refine ⟨fun w hw => decode_of_op_0 w (BitVec.eq_of_toNat_eq ?_), fun s => exec_nop s⟩
  rw [opField_toNat, hw]
  rfl

/-- The answer of an ignored command: IGN in bit 31, the command's code in bits 27:24 (R79, R201). -/
theorem responseWord_ignored (op : BitVec 4) :
    responseWord true op 0 0 = (0x80000000 : ResponseWord) ||| (op.setWidth 32 <<< 24) := by
  revert op
  decide

/-- The command's code in bits 27:24, as a number. -/
theorem setWidth_shiftLeft_24 (op : BitVec 4) : op.setWidth 32 <<< 24 = BitVec.ofNat 32 (op.toNat * 2 ^ 24) := by
  revert op
  decide

theorem State.ignore_eq (s : State) (op : BitVec 4) :
    s.ignore op = { s with responses := s.responses ++ [(0x80000000 : ResponseWord) ||| (op.setWidth 32 <<< 24)] } := by
  rw [State.ignore, responseWord_ignored, State.emit]

/-- Settles O53. -/
theorem reservedConstructorsEchoTheirCode : Obligations.ReservedConstructorsEchoTheirCode := by
  intro op s
  rw [exec_rsvdLow, exec_rsvdHigh, State.ignore_eq]
  exact ⟨rfl, rfl⟩

/-- A word with a reserved OP is ignored, in whichever of the two rows it stands (R76, R137). -/
theorem exec_decode_of_reserved {w : CommandWord} (h : 4 ≤ (opField w).toNat) (s : State) :
    exec (decode w) s = .next (s.ignore (opField w)) := by
  rcases Nat.lt_or_ge (opField w).toNat 8 with hlow | hhigh
  · rw [decode_of_op_low w h (Nat.le_of_lt_succ hlow), exec_rsvdLow]
  · rw [decode_of_op_high w hhigh, exec_rsvdHigh]

/-- Settles O33: an ignored command leaves all that the next TICK reads. -/
theorem reservedCodesAreIgnored : Obligations.ReservedCodesAreIgnored := by
  refine ⟨fun op s _ => (reservedConstructorsEchoTheirCode op s).1, fun op s _ => (reservedConstructorsEchoTheirCode op s).2,
    fun w s h => ?_, fun w s h => ?_⟩
  · rw [← opField_toNat] at h ⊢
    rw [exec_decode_of_reserved h, State.ignore_eq, setWidth_shiftLeft_24]
  · rw [← opField_toNat] at h
    obtain ⟨u', u, r, hu', hu, hvoices, htick, -, hr', hr⟩ :=
      portDoesNotReachTheVoices .tick s (s.ignore (opField w)) rfl rfl rfl
    exact ⟨_, u, u', r, exec_decode_of_reserved h s, hu, hu', hr, hr', hvoices, htick⟩

end Sys2Proof.Machine
end

