-- ==== Sys2Proof/Proofs/NoteOn.lean ====
section
/-! NOTE_ON: the slot its allocation takes (R130, R133), and that it loads this slot alone (R132, R134). -/

namespace Sys2Proof.Machine

open Sys2Proof Sys2Proof.Rules

theorem slotAt_of_slot? {s : State} {c j : Nat} {v : Voice} (h : s.slot? c j = some v) : slotAt s c j = v := by
  rw [slotAt, h, Option.getD_some]

/-- The row of a channel, read slot by slot. -/
theorem slotAt_eq_getElem {s : State} {c j : Nat} (h : j < (s.row c).length) : slotAt s c j = (s.row c)[j] :=
  slotAt_of_slot? (List.getElem?_eq_getElem h)

/-- Settles O36. -/
theorem noteOnChangesAtMostTheAllocatedSlot : Obligations.NoteOnChangesAtMostTheAllocatedSlot := by
  intro s t ch note wave vol inc h c j hother
  cases h
  rw [State.emit_slot?, noteOn_slot?, if_neg fun ⟨hc, hj, _⟩ => hother ⟨hc, hj⟩]

/-- `LoadsSlot c j v s t`: all that `t` differs in from `s` is that slot `j` of channel `c` holds `v` and that NOTE_ON has
answered its index (R132). -/
structure LoadsSlot (c j : Nat) (v : Voice) (s t : State) : Prop where
  slots : ∀ c' j', t.slot? c' j' = if c' = c ∧ j' = j then some v else s.slot? c' j'
  responses : t.responses = s.responses ++ [responseWord false 2 j 0]
  tick : t.tick = s.tick
  port : PortUnchanged s t

theorem LoadsSlot.slot?_self {c j : Nat} {v : Voice} {s t : State} (h : LoadsSlot c j v s t) : t.slot? c j = some v := by
  rw [h.slots, if_pos ⟨rfl, rfl⟩]

theorem LoadsSlot.slot?_of_ne {c j : Nat} {v : Voice} {s t : State} (h : LoadsSlot c j v s t) {j' : Nat} (hj : j' ≠ j) :
    t.slot? c j' = s.slot? c j' := by
  rw [h.slots, if_neg fun ⟨_, e⟩ => hj e]

section noteOn
variable {s : State} {ch : BitVec 4} (note : BitVec 7) (wave : Waveform) (vol : BitVec 7) (inc : CycleFraction)

/-- NOTE_ON loads the allocated slot, where its channel has a slot at all. -/
theorem exec_noteOn_loadsSlot (hrow : s.row (chan s.cfg ch) ≠ []) :
    ∃ t, exec (.noteOn ch note wave vol inc) s = .next t ∧
      LoadsSlot (chan s.cfg ch) (alloc (s.row (chan s.cfg ch))) (Voice.load note wave vol inc) s t := by
  refine ⟨_, exec_noteOn .., fun c j => ?_, rfl, rfl, rfl, rfl, rfl, rfl, rfl⟩
  rw [State.emit_slot?, noteOn_slot?]
  simp only [hrow, ne_eq, not_false_eq_true, and_true]

/-- Where the channel has an inactive slot, NOTE_ON takes an inactive one (R130). -/
theorem exec_noteOn_loadsInactiveSlot {i : Nat} {v : Voice} (hv : s.slot? (chan s.cfg ch) i = some v)
    (hinactive : v.active = false) :
    ∃ t j u, exec (.noteOn ch note wave vol inc) s = .next t ∧ s.slot? (chan s.cfg ch) j = some u ∧ u.active = false ∧
      LoadsSlot (chan s.cfg ch) j (Voice.load note wave vol inc) s t := by
  have hmem : v ∈ s.row (chan s.cfg ch) := List.mem_of_getElem? hv
  obtain ⟨u, hu, hfree, -⟩ := alloc_of_inactive ⟨v, hmem, hinactive⟩
  obtain ⟨t, hexec, hload⟩ := exec_noteOn_loadsSlot note wave vol inc (List.ne_nil_of_mem hmem)
  exact ⟨t, _, u, hexec, hu, hfree, hload⟩

end noteOn

/-- Which slot of a channel an allocation takes: the lowest inactive one, or slot 0 of a channel that has none (R130, R133). -/
theorem alloc_lowest_inactive_or_full (s : State) (c : Nat) :
    ((slotAt s c (alloc (s.row c))).active = false ∧ ∀ i < alloc (s.row c), (slotAt s c i).active = true) ∨
      (alloc (s.row c) = 0 ∧ ∀ i < (s.row c).length, (slotAt s c i).active = true) := by
  by_cases hfree : ∃ v ∈ s.row c, v.active = false
  · obtain ⟨u, hu, hinactive, hbelow⟩ := alloc_of_inactive hfree
    obtain ⟨hlt, -⟩ := List.getElem?_eq_some_iff.mp hu
    refine .inl ⟨(slotAt_of_slot? hu).symm ▸ hinactive, fun i hi => ?_⟩
    rw [slotAt_eq_getElem (hi.trans hlt)]
    exact hbelow i hi _ (List.getElem?_eq_getElem _)
  · have hfull : ∀ v ∈ s.row c, v.active = true := by simpa using hfree
    refine .inr ⟨alloc_of_full hfull, fun i hi => ?_⟩
    rw [slotAt_eq_getElem hi]
    exact hfull _ (List.getElem_mem hi)

/-- Settles O31: a row of the shape and parameters assumed is not empty, so the allocation takes a slot of it. -/
theorem noteOnLoadsTheAllocatedSlot : Obligations.NoteOnLoadsTheAllocatedSlot := by
  refine ⟨fun s ch note wave vol inc hlegal hshaped => ?_, fun s ch note wave vol inc => exec_noteOnRsvdWave ..⟩
  rw [← chan_eq_channelOf]
  have hchan := chan_lt s.cfg ch
  have hrow := State.row_ne_nil_of_shaped hlegal hshaped hchan
  obtain ⟨t, hexec, hload⟩ := exec_noteOn_loadsSlot note wave vol inc hrow
  rw [← State.row_length_of_shaped hshaped hchan]
  refine ⟨_, t, alloc_lt hrow, alloc_lowest_inactive_or_full s _, hexec, hload.slots, hload.responses, hload.tick,
    hload.port, ?_⟩
  rw [sampleOf, slotAt_of_slot? hload.slot?_self]
  rfl

/-- Settles O37: of two free slots the first NOTE_ON leaves one free, so the second takes a free one too, while the slot of
the first is active. -/
theorem retriggerTakesAFurtherSlot : Obligations.RetriggerTakesAFurtherSlot := by
  intro s ch note wave vol inc i k vi vk hik hi hk hai hak
  rw [← chan_eq_channelOf] at hi hk ⊢
  obtain ⟨t, j, _, ht, -, -, hfirst⟩ := exec_noteOn_loadsInactiveSlot note wave vol inc hi hai
  obtain ⟨i', v', hi', hai'⟩ : ∃ i' v', t.slot? (chan s.cfg ch) i' = some v' ∧ v'.active = false := by
    by_cases hij : i = j
    · exact ⟨k, vk, (hfirst.slot?_of_ne fun e => hik (hij.trans e.symm)).trans hk, hak⟩
    · exact ⟨i, vi, (hfirst.slot?_of_ne hij).trans hi, hai⟩
  rw [← hfirst.port.1] at hi' hfirst ⊢
  obtain ⟨u, j', w, hu, hj', haw, hsecond⟩ := exec_noteOn_loadsInactiveSlot note wave vol inc hi' hai'
  have hne : j ≠ j' := by
    rintro rfl
    cases hj'.symm.trans hfirst.slot?_self
    cases haw
  refine ⟨t, u, j, j', Voice.load note wave vol inc, ht, hu, hne, ?_, hsecond.slot?_self, rfl, rfl, ?_⟩
  · rw [hsecond.slot?_of_ne hne, hfirst.slot?_self]
  · rw [hsecond.responses, hfirst.responses, List.append_assoc, List.singleton_append]

end Sys2Proof.Machine
end

