-- ==== Sys2Proof/Proofs/NoteRelease.lean ====
section
/-! NOTE_OFF where voices sound its note (R135): which slots it releases, how many it answers, and the silence after a NOTE_ON
and its NOTE_OFF (R136). -/

namespace Sys2Proof.Machine

open Sys2Proof Sys2Proof.Rules

theorem Voice.sounds_iff (note : BitVec 7) (v : Voice) : v.sounds note = true ↔ v.active = true ∧ v.note = note := by
  rw [Voice.sounds, Bool.and_eq_true, decide_eq_true_iff]

/-- The row of a channel lists its slots by number. -/
theorem row_eq_map_slotAt (s : State) (c : Nat) : s.row c = (List.range (s.row c).length).map (slotAt s c) := by
  refine List.ext_getElem (by simp) fun j hj _ => ?_
  rw [List.getElem_map, List.getElem_range, slotAt_eq_getElem hj]

/-- Counting the voices of a row that sound a note is counting the active slots that hold it. -/
theorem countP_sounds_eq_card {s : State} (hshaped : s.shaped = true) {c : Nat} (hc : c < numChannels s.cfg)
    (note : BitVec 7) :
    (s.row c).countP (Voice.sounds note) = ((activeSlots s c).filter (fun j => (slotAt s c j).note = note)).card := by
  rw [row_eq_map_slotAt, State.row_length_of_shaped hshaped hc, List.countP_map, activeSlots, Finset.filter_filter,
    ← Nat.count_eq_card_filter_range, Nat.count]
  refine List.countP_congr fun j _ => ?_
  rw [Function.comp_apply, Voice.sounds_iff, decide_eq_true_iff]

/-- Settles O32. -/
theorem noteOffReleasesEveryMatchingVoice : Obligations.NoteOffReleasesEveryMatchingVoice := by
  intro s ch note hshaped
  rw [← chan_eq_channelOf, ← countP_sounds_eq_card hshaped (chan_lt s.cfg ch)]
  refine ⟨_, exec_noteOff .., fun c j => ?_, rfl, rfl, rfl, rfl, rfl, rfl, rfl⟩
  rw [State.emit_slot?, noteOff_slot?]
  simp only [Voice.sounds_iff, Voice.release]

/-- With no slot active the output is 0 (R166). -/
theorem State.outputSample_of_silent_slots {s : State} (h : ∀ c j v, s.slot? c j = some v → v.active = false) :
    s.outputSample = 0 := by
  refine State.outputSample_of_silent fun row hrow v hv => ?_
  obtain ⟨c, hc⟩ := List.mem_iff_getElem?.mp hrow
  obtain ⟨j, hj⟩ := List.mem_iff_getElem?.mp hv
  exact h c j v (by rwa [State.slot?, State.row_of_getElem? hc])

/-- Where nothing sounded, a slot that is active after NOTE_ON is one of its channel that sounds its note. -/
theorem sounds_of_active_after_noteOn {s t : State} {ch : BitVec 4} {note : BitVec 7} {wave : Waveform} {vol : BitVec 7}
    {inc : CycleFraction} (hsilent : ∀ c j v, s.slot? c j = some v → v.active = false)
    (h : exec (.noteOn ch note wave vol inc) s = .next t) {c j : Nat} {v : Voice} (hv : t.slot? c j = some v)
    (ha : v.active = true) : c = chan t.cfg ch ∧ v.sounds note = true := by
  cases h
  rw [State.emit_slot?, noteOn_slot?] at hv
  split at hv
  case isTrue hslot =>
    cases hv
    exact ⟨hslot.1, (Voice.sounds_iff ..).mpr ⟨rfl, rfl⟩⟩
  case isFalse => simp [hsilent c j v hv] at ha

/-- Settles O39: NOTE_OFF releases the only slot that NOTE_ON has left active. -/
theorem noteOnThenNoteOffIsSilent : Obligations.NoteOnThenNoteOffIsSilent := by
  intro s ch note wave vol inc hsilent
  obtain ⟨t, ht⟩ : ∃ t, exec (.noteOn ch note wave vol inc) s = .next t := ⟨_, exec_noteOn ..⟩
  obtain ⟨u, hu⟩ : ∃ u, exec (.noteOff ch note) t = .next u := ⟨_, exec_noteOff ..⟩
  have hreleased : ∀ c j v, u.slot? c j = some v → v.active = false := by
    intro c j v hv
    cases hu
    rw [State.emit_slot?, noteOff_slot?] at hv
    obtain ⟨v₀, hv₀, rfl⟩ := Option.map_eq_some_iff.mp hv
    split
    case isTrue => rfl
    case isFalse hkept => exact eq_false_of_ne_true fun ha => hkept (sounds_of_active_after_noteOn hsilent ht hv₀ ha)
  refine ⟨t, u, _, ht, hu, exec_tick u, hreleased, ?_⟩
  rw [State.outputSample_of_silent_slots hreleased]
  rfl

end Sys2Proof.Machine
end

