-- ==== Sys2Proof/Proofs/MixerAverages.lean ====
section
/-! The two averages of the mixer (R164 to R166): each is one truncating division, of a sum by a count, and so does not depend
on an order, keeps the bounds of what it averages (R163, R171), and is the common value of equal voices (R172). -/

namespace Sys2Proof.Machine

open Sys2Proof

/-- The mix of a silent channel is no special case: dividing by 0 gives 0 (R165). -/
theorem channelMix_eq_tdiv (cfg : Config) (t : BitVec 32) (row : List Voice) :
    channelMix cfg t row = tdiv (channelSum cfg t row) (127 * activeCount row) := by
  unfold channelMix
  split
  case isTrue h => simp [h, tdiv]
  case isFalse => rfl

/-- Nor is the output where nothing sounds: the empty sum is 0 (R166). -/
theorem finalMix_eq_tdiv (mixes : List Int) :
    finalMix mixes =
      tdiv (mixes.filter (fun m => decide (m ≠ 0))).sum (mixes.filter (fun m => decide (m ≠ 0))).length := by
  unfold finalMix
  dsimp only
  split
  case isTrue h => rw [h, List.sum_nil, tdiv_zero_left]
  case isFalse => rfl

/-! ### The order of summation -/

theorem channelMix_perm (cfg : Config) (t : BitVec 32) {row row' : List Voice} (h : row.Perm row') :
    channelMix cfg t row = channelMix cfg t row' := by
  have hactive := h.filter (fun v => v.active)
  rw [channelMix_eq_tdiv, channelMix_eq_tdiv, channelSum, channelSum, activeCount, activeCount, (hactive.map _).sum_eq,
    hactive.length_eq]

theorem finalMix_perm {mixes mixes' : List Int} (h : mixes.Perm mixes') : finalMix mixes = finalMix mixes' := by
  have hnonzero := h.filter (fun m => decide (m ≠ 0))
  rw [finalMix_eq_tdiv, finalMix_eq_tdiv, hnonzero.sum_eq, hnonzero.length_eq]

/-- Settles O23: a permuted list has the same sum and the same count. -/
theorem summationOrderDoesNotMatter : Obligations.SummationOrderDoesNotMatter :=
  ⟨fun cfg t _ _ => channelMix_perm cfg t, fun _ _ => finalMix_perm⟩

/-! ### The ranges -/

theorem natAbs_sum_le {xs : List Int} {bound : Nat} (h : ∀ x ∈ xs, x.natAbs ≤ bound) :
    xs.sum.natAbs ≤ bound * xs.length := by
  induction xs with
  | nil => exact Nat.zero_le _
  | cons x xs ih =>
    obtain ⟨hx, hxs⟩ := List.forall_mem_cons.mp h
    calc (x :: xs).sum.natAbs = (x + xs.sum).natAbs := by rw [List.sum_cons]
      _ ≤ x.natAbs + xs.sum.natAbs := Int.natAbs_add_le _ _
      _ ≤ bound + bound * xs.length := Nat.add_le_add hx (ih hxs)
      _ = bound * (x :: xs).length := by rw [List.length_cons, Nat.mul_succ, Nat.add_comm]

/-- Truncating a quotient keeps the bound that the dividend has by its divisor. -/
theorem natAbs_tdiv_le {a : Int} {b bound : Nat} (h : a.natAbs ≤ b * bound) : (tdiv a b).natAbs ≤ bound := by
  rw [natAbs_tdiv]
  exact Nat.div_le_of_le_mul h

theorem natAbs_sample_le (cfg : Config) (t : BitVec 32) (v : Voice) : (v.sample cfg t).natAbs ≤ 32767 := by
  obtain ⟨hlow, hhigh, -⟩ := oscillatorSamplesAreBounded v.wave v.phase (v.nextLfsr cfg t)
  unfold Voice.sample
  omega

/-- `32767 * 127`, the largest product (R163). -/
theorem natAbs_product_le (cfg : Config) (t : BitVec 32) (v : Voice) : (v.product cfg t).natAbs ≤ 4161409 := by
  rw [Voice.product, Int.natAbs_mul, Int.natAbs_natCast]
  exact Nat.mul_le_mul (natAbs_sample_le cfg t v) (Nat.le_of_lt_succ v.vol.isLt)

theorem natAbs_channelSum_le (cfg : Config) (t : BitVec 32) (row : List Voice) :
    (channelSum cfg t row).natAbs ≤ 4161409 * activeCount row := by
  unfold channelSum activeCount
  rw [← List.length_map (fun v => v.product cfg t)]
  refine natAbs_sum_le fun x hx => ?_
  obtain ⟨v, -, rfl⟩ := List.mem_map.mp hx
  exact natAbs_product_le cfg t v

theorem natAbs_channelMix_le (cfg : Config) (t : BitVec 32) (row : List Voice) : (channelMix cfg t row).natAbs ≤ 32767 := by
  have hsum := natAbs_channelSum_le cfg t row
  rw [channelMix_eq_tdiv]
  exact natAbs_tdiv_le (by omega)

theorem natAbs_finalMix_le {mixes : List Int} {bound : Nat} (h : ∀ m ∈ mixes, m.natAbs ≤ bound) :
    (finalMix mixes).natAbs ≤ bound := by
  rw [finalMix_eq_tdiv]
  refine natAbs_tdiv_le ?_
  rw [Nat.mul_comm]
  exact natAbs_sum_le fun m hm => h m (List.mem_of_mem_filter hm)

theorem natAbs_outputSample_le (s : State) : s.outputSample.natAbs ≤ 32767 := by
  refine natAbs_finalMix_le fun m hm => ?_
  obtain ⟨row, -, rfl⟩ := List.mem_map.mp hm
  exact natAbs_channelMix_le s.cfg s.tick row

/-- Settles O21: an output in its range is read back as it is, and so its field is not that of -32768. -/
theorem mixerStaysInRange : Obligations.MixerStaysInRange := by
  refine ⟨natAbs_product_le, fun cfg t row => ⟨natAbs_channelSum_le cfg t row, natAbs_channelMix_le cfg t row⟩,
    fun _ => natAbs_finalMix_le, fun s => ?_⟩
  have hrange := natAbs_outputSample_le s
  have hread : ResponseWord.sample (responseWord false 1 0 s.outputSample) = s.outputSample :=
    sample_responseWord _ _ _ (by omega) (by omega)
  refine ⟨_, _, exec_tick s, rfl, hread, fun hfield => ?_⟩
  have hlowest : ResponseWord.sample (responseWord false 1 0 s.outputSample) = -32768 := congrArg BitVec.toInt hfield
  omega

/-! ### One sounding channel, equal voices -/

/-- Where no other mix sounds, the final mix is the first one (R166). -/
theorem finalMix_cons_of_zero {m : Int} {rest : List Int} (h : ∀ m' ∈ rest, m' = 0) : finalMix (m :: rest) = m := by
  have hrest : rest.filter (fun m => decide (m ≠ 0)) = [] := by simpa [List.filter_eq_nil_iff] using h
  by_cases hm : m = 0
  · rw [finalMix_of_zero (List.forall_mem_cons.mpr ⟨hm, h⟩), hm]
  · rw [finalMix_eq_tdiv, List.filter_cons_of_pos (by simpa using hm), hrest, List.sum_singleton, List.length_singleton,
      tdiv_one]

/-- With active voices in one channel alone, the output is that channel's mix: the order of the channels does not matter, so
it may be taken first. -/
theorem outputSample_of_one_channel {s : State} {c : Nat} (hc : c < s.voices.length)
    (h : ∀ c', c' ≠ c → ∀ v ∈ s.row c', v.active = false) : s.outputSample = channelMix s.cfg s.tick (s.row c) := by
  have hperm := (List.getElem_cons_eraseIdx_perm hc).map (channelMix s.cfg s.tick)
  rw [List.map_cons, ← State.row_of_getElem? (List.getElem?_eq_getElem hc)] at hperm
  rw [State.outputSample, ← finalMix_perm hperm]
  refine finalMix_cons_of_zero fun m hm => ?_
  obtain ⟨row, hrow, rfl⟩ := List.mem_map.mp hm
  obtain ⟨c', hne, hc'⟩ := List.mem_eraseIdx_iff_getElem?.mp hrow
  exact channelMix_of_silent (State.row_of_getElem? hc' ▸ h c' hne)

/-- Settles O24: a FLAT file of its shape has no slot in any other channel, so only channel 0 can sound. -/
theorem flatOutputIsTheChannelAverage : Obligations.FlatOutputIsTheChannelAverage := by
  intro s hflat hshaped
  have hone : numChannels s.cfg = 1 := by rw [numChannels, hflat]
  have houtput : s.outputSample = channelMix s.cfg s.tick (s.row 0) := by
    have hlength : s.voices.length = numChannels s.cfg := (s.shaped_iff.mp hshaped).1
    refine outputSample_of_one_channel (by omega) fun c hc v hv => ?_
    rw [State.row_eq_nil_of_shaped hshaped (by omega)] at hv
    cases hv
  refine ⟨houtput, fun hsilent => ?_, fun hsounds => ?_⟩
  · rw [houtput, channelMix, if_pos hsilent]
  · rw [houtput, channelMix, if_neg hsounds]

theorem tdiv_mul_mul_right (a : Int) (b : Nat) {n : Nat} (hn : 0 < n) : tdiv (a * n) (b * n) = tdiv a b := by
  rw [tdiv_eq_intTdiv, tdiv_eq_intTdiv, Nat.cast_mul, Int.mul_tdiv_mul_of_pos_left _ _ (Int.natCast_pos.mpr hn)]

/-- The average of equal products is the common one, divided by 127 (R165, R172). -/
theorem channelMix_of_equal_products {cfg : Config} {t : BitVec 32} {row : List Voice} {y : Int}
    (hsome : ∃ v ∈ row, v.active = true) (hequal : ∀ v ∈ row, v.active = true → v.product cfg t = y) :
    channelMix cfg t row = tdiv y 127 := by
  obtain ⟨v, hv, hactive⟩ := hsome
  have hcount : 0 < activeCount row := List.length_pos_of_mem (List.mem_filter.mpr ⟨hv, hactive⟩)
  have hproducts : (row.filter (fun v => v.active)).map (fun v => v.product cfg t) = List.replicate (activeCount row) y := by
    refine List.eq_replicate_iff.mpr ⟨List.length_map _, fun x hx => ?_⟩
    obtain ⟨u, hu, rfl⟩ := List.mem_map.mp hx
    obtain ⟨hu, hua⟩ := List.mem_filter.mp hu
    exact hequal u hu hua
  rw [channelMix_eq_tdiv, channelSum, hproducts, List.sum_replicate, nsmul_eq_mul, mul_comm, tdiv_mul_mul_right _ _ hcount]

/-- Settles O25: the one sounding channel's mix is the average of equal products. -/
theorem equalVoicesMixToTheirCommonValue : Obligations.EqualVoicesMixToTheirCommonValue := by
  refine ⟨fun s h => State.outputSample_of_silent_slots h, fun s c x vol hsome hequal hothers => ?_⟩
  obtain ⟨v, hv, hactive⟩ := hsome
  have hc : c < s.voices.length := by
    by_contra hc
    rw [State.row_of_none (List.getElem?_eq_none (not_lt.mp hc))] at hv
    cases hv
  have hproduct : ∀ u ∈ s.row c, u.active = true → u.product s.cfg s.tick = x * (vol.toNat : Int) := by
    intro u hu hua
    obtain ⟨hx, hvol⟩ := hequal u hu hua
    rw [Voice.product, hx, hvol]
  have houtput : s.outputSample = tdiv (x * (vol.toNat : Int)) 127 := by
    rw [outputSample_of_one_channel hc hothers, channelMix_of_equal_products ⟨v, hv, hactive⟩ hproduct]
  refine ⟨houtput, ?_⟩
  rintro rfl
  rw [houtput]
  exact (tdiv_mul_mul_right x 1 (by decide)).trans (tdiv_one x)

end Sys2Proof.Machine
end

