-- ==== Sys2Proof/Proofs/NoiseUpdateTicks.lean ====
section
/-! The update ticks of the noise kinds (R111, R161, R168): which ticks they are, their spacing over the wrap of TICK, and what
a noise voice holds between them (R174). -/

namespace Sys2Proof.Machine

open Sys2Proof Sys2Proof.Rules

/-- The model's test for the noise update is the rule's (R111, R161). -/
theorem isUpdateTick_iff (cfg : Config) (wave : Waveform) (t : Nat) :
    IsUpdateTick cfg wave t ↔ isNoise wave = true ∧ t % noiseRate cfg wave = 0 := by
  unfold IsUpdateTick noiseRate rateLong rateShort
  cases wave with
  | square | pulse25 | pulse12_5 | triangle => simp [isNoise]
  | noiseLong | noiseShort => cases cfg.noiseRates <;> simp [isNoise]

theorem nextLfsr_of_updateTick {cfg : Config} {t : BitVec 32} {v : Voice} (h : IsUpdateTick cfg v.wave t.toNat) :
    v.nextLfsr cfg t = lfsrStep v.wave v.lfsr := by
  rw [isUpdateTick_iff] at h
  simp only [Voice.nextLfsr, h, decide_true, Bool.and_self, if_true]

theorem nextLfsr_of_not_updateTick {cfg : Config} {t : BitVec 32} {v : Voice} (h : ¬ IsUpdateTick cfg v.wave t.toNat) :
    v.nextLfsr cfg t = v.lfsr := by
  rw [isUpdateTick_iff] at h
  rw [Voice.nextLfsr, if_neg (by simpa using h)]

/-- The rates are powers of two from 2 to 8 (R6, R111). -/
theorem noiseRate_cases (cfg : Config) (wave : Waveform) :
    noiseRate cfg wave = 2 ∨ noiseRate cfg wave = 4 ∨ noiseRate cfg wave = 8 := by
  unfold noiseRate rateLong rateShort
  cases cfg.noiseRates <;> split <;> simp

/-- Settles O28: every rate divides `2 ^ 32`. -/
theorem tickWrapKeepsUpdateTicksSpaced : Obligations.TickWrapKeepsUpdateTicksSpaced := by
  intro cfg wave
  rw [isUpdateTick_iff, isUpdateTick_iff]
  have hrate := noiseRate_cases cfg wave
  refine ⟨fun ⟨_, hlast⟩ => ?_, fun hnoise => ⟨hnoise, Nat.zero_mod _⟩, fun t => ?_⟩
  · rcases hrate with h | h | h <;> rw [h] at hlast <;> cases hlast
  · have hdvd : noiseRate cfg wave ∣ 2 ^ 32 := by rcases hrate with h | h | h <;> rw [h] <;> decide
    rw [BitVec.toNat_add, Nat.mod_mod_of_dvd _ hdvd, Nat.mod_add_mod]
    rfl

/-- A noise sample is read from the updated register alone (R108). -/
theorem sample_of_noise {cfg : Config} {t : BitVec 32} {v : Voice} (h : v.wave = .noiseLong ∨ v.wave = .noiseShort) :
    v.sample cfg t = noiseOut (v.nextLfsr cfg t) := by
  unfold Voice.sample
  rcases h with h | h <;> rw [h] <;> rfl

/-- Settles O27: TICK stores the updated register, and a TICK that is no update tick updates it to itself. -/
theorem noiseHoldsBetweenUpdateTicks : Obligations.NoiseHoldsBetweenUpdateTicks := by
  intro s t c j v v' htick hv hactive hnoise hv' hbetween
  cases htick
  rw [State.emit_slot?, State.advance_slot?, hv] at hv'
  cases hv'
  rw [← Voice.advance_wave s.cfg s.tick] at hbetween
  have hhold := nextLfsr_of_not_updateTick hbetween
  have hstored : (v.advance s.cfg s.tick).lfsr = v.nextLfsr s.cfg s.tick := by rw [Voice.advance_lfsr, if_pos hactive]
  refine ⟨?_, hhold.trans hstored, hhold⟩
  rw [sample_of_noise hnoise, sample_of_noise (by simpa using hnoise), hhold, hstored]

end Sys2Proof.Machine
end

