-- ==== Sys2Proof/Proofs/TickRefinement.lean ====
section
/-! TICK against the pseudocode of R160: the model's lists of active voices and of channel mixes are the rule's sets of active
slots and of sounding channels. What the rule reads of a register file is then what reaches the response (R173). -/

namespace Sys2Proof.Machine

open Sys2Proof Sys2Proof.Rules

/-! ### One slot -/

theorem updatedLfsr_eq_nextLfsr (cfg : Config) (t : BitVec 32) (v : Voice) : updatedLfsr cfg t v = v.nextLfsr cfg t := by
  unfold updatedLfsr
  split
  case isTrue h => exact (nextLfsr_of_updateTick h).symm
  case isFalse h => exact (nextLfsr_of_not_updateTick h).symm

theorem sampleOf_eq_sample (cfg : Config) (t : BitVec 32) (v : Voice) : sampleOf cfg t v = v.sample cfg t := by
  rw [sampleOf, updatedLfsr_eq_nextLfsr, Voice.sample]

theorem advanced_eq_advance (cfg : Config) (t : BitVec 32) (v : Voice) : advanced cfg t v = v.advance cfg t := by
  have hphase : BitVec.ofNat 32 ((v.phase.toNat + v.inc.toNat) % 2 ^ 32) = v.phase + v.inc :=
    BitVec.eq_of_toNat_eq (by simp)
  rw [advanced, updatedLfsr_eq_nextLfsr, hphase, Voice.advance]

/-! ### Sums over numbered slots and channels -/

theorem sum_filter_range (p : Nat → Prop) [DecidablePred p] (f : Nat → Int) (n : Nat) :
    ∑ k ∈ (Finset.range n).filter p, f k = (((List.range n).filter (fun k => decide (p k))).map f).sum := rfl

theorem card_filter_range (p : Nat → Prop) [DecidablePred p] (n : Nat) :
    ((Finset.range n).filter p).card = ((List.range n).filter (fun k => decide (p k))).length := rfl

section shaped
variable {s : State} (hshaped : s.shaped = true) {c : Nat} (hc : c < numChannels s.cfg)

section channel
include hshaped hc

/-- The active voices of a channel are the voices of its active slots. -/
theorem activeVoices_eq_map_slotAt :
    (s.row c).filter (fun v => v.active) =
      ((List.range s.cfg.voicesPerChannel).filter (fun j => decide ((slotAt s c j).active = true))).map (slotAt s c) := by
  rw [row_eq_map_slotAt s c, State.row_length_of_shaped hshaped hc, List.filter_map]
  simp only [Function.comp_def, Bool.decide_eq_true]

theorem activeCount_eq_card : activeCount (s.row c) = (activeSlots s c).card := by
  rw [activeCount, activeVoices_eq_map_slotAt hshaped hc, List.length_map, activeSlots, card_filter_range]

theorem channelSum_eq_sumOf : channelSum s.cfg s.tick (s.row c) = sumOf s c := by
  rw [channelSum, activeVoices_eq_map_slotAt hshaped hc, List.map_map, sumOf, activeSlots, sum_filter_range]
  simp only [Function.comp_def, Voice.product, sampleOf_eq_sample]

theorem channelMix_eq_mixOf : channelMix s.cfg s.tick (s.row c) = mixOf s c := by
  rw [channelMix, mixOf, activeCount_eq_card hshaped hc, channelSum_eq_sumOf hshaped hc, tdiv_eq_intTdiv, Nat.cast_mul]
  rfl

end channel

/-- The register file lists its channels by number. -/
theorem voices_eq_map_row (s : State) : s.voices = (List.range s.voices.length).map s.row := by
  refine List.ext_getElem (by simp) fun c hc _ => ?_
  rw [List.getElem_map, List.getElem_range, State.row_of_getElem? (List.getElem?_eq_getElem hc)]

theorem soundingChannels_eq_filter (s : State) :
    soundingChannels s = (Finset.range (numChannels s.cfg)).filter (fun c => mixOf s c ≠ 0) := by
  unfold soundingChannels numChannels
  cases s.cfg.poolMode <;> rfl

include hshaped

theorem mixes_eq_map_mixOf :
    s.voices.map (channelMix s.cfg s.tick) = (List.range (numChannels s.cfg)).map (mixOf s) := by
  rw [voices_eq_map_row, (s.shaped_iff.mp hshaped).1, List.map_map]
  exact List.map_congr_left fun c hc => channelMix_eq_mixOf hshaped (List.mem_range.mp hc)

/-- The mixes that are not 0 are those of the sounding channels (R166). -/
theorem outputSample_eq_outputOf : s.outputSample = outputOf s := by
  have hsum : (∑ c ∈ soundingChannels s, mixOf s c) =
      ((s.voices.map (channelMix s.cfg s.tick)).filter (fun m => decide (m ≠ 0))).sum := by
    rw [soundingChannels_eq_filter, sum_filter_range, mixes_eq_map_mixOf hshaped, List.filter_map]
    rfl
  have hcard : (soundingChannels s).card =
      ((s.voices.map (channelMix s.cfg s.tick)).filter (fun m => decide (m ≠ 0))).length := by
    rw [soundingChannels_eq_filter, card_filter_range, mixes_eq_map_mixOf hshaped, List.filter_map, List.length_map]
    rfl
  rw [State.outputSample, finalMix_eq_tdiv, ← hsum, ← hcard, tdiv_eq_intTdiv, outputOf]
  split
  case isTrue hnone => rw [hnone, Finset.sum_empty, Int.zero_tdiv]
  case isFalse => rfl

end shaped

/-- Settles O20: step for step of R160, on the slots and on the output. -/
theorem tickFollowsTheRulesPseudocode : Obligations.TickFollowsTheRulesPseudocode := by
  refine ⟨fun w hop => decode_of_op_1 w ?_, fun s hshaped => ?_⟩
  · rw [← BitVec.toNat_inj, opField_toNat, hop]
    rfl
  · have hslots : advanced s.cfg s.tick = fun v => v.advance s.cfg s.tick := funext (advanced_eq_advance s.cfg s.tick)
    refine ⟨_, exec_tick s, fun c j => ?_, BitVec.toNat_add s.tick 1, ?_, rfl, rfl, rfl, rfl, rfl⟩
    · rw [State.emit_slot?, State.advance_slot?, hslots]
    · rw [State.emit_responses, State.advance_responses, outputSample_eq_outputOf hshaped]

/-! ### Inactive slots -/

/-- The two files hold the same active slots. -/
def SameActiveSlots (s s' : State) : Prop :=
  ∀ c j, (slotAt s' c j).active = (slotAt s c j).active ∧ ((slotAt s c j).active = true → slotAt s' c j = slotAt s c j)

/-- Files of one shape that hold the same active slots where both have a slot do so everywhere. -/
theorem sameActiveSlots_of_slot? {s s' : State} (hshaped : s.shaped = true) (hshaped' : s'.shaped = true)
    (hcfg : s'.cfg = s.cfg)
    (h : ∀ c j v v', s.slot? c j = some v → s'.slot? c j = some v' →
      v'.active = v.active ∧ (v.active = true → v' = v)) : SameActiveSlots s s' := by
  intro c j
  have hsome : (s'.slot? c j).isSome = (s.slot? c j).isSome := by
    rw [Bool.eq_iff_iff, State.slot?_isSome_of_shaped hshaped', State.slot?_isSome_of_shaped hshaped, hcfg]
  unfold slotAt
  cases hv : s.slot? c j with
  | none =>
    rw [hv, Option.isSome_none, Option.isSome_eq_false_iff, Option.isNone_iff_eq_none] at hsome
    rw [hsome]
    exact ⟨rfl, fun _ => rfl⟩
  | some v =>
    rw [hv, Option.isSome_some] at hsome
    obtain ⟨v', hv'⟩ := Option.isSome_iff_exists.mp hsome
    rw [hv']
    exact h c j v v' hv hv'

section sameActive
variable {s s' : State} (hcfg : s'.cfg = s.cfg) (htick : s'.tick = s.tick) (h : SameActiveSlots s s')
include hcfg h

theorem activeSlots_of_sameActiveSlots (c : Nat) : activeSlots s' c = activeSlots s c := by
  rw [activeSlots, activeSlots, hcfg]
  exact Finset.filter_congr fun j _ => by rw [(h c j).1]

include htick

theorem mixOf_of_sameActiveSlots (c : Nat) : mixOf s' c = mixOf s c := by
  have hslots := activeSlots_of_sameActiveSlots hcfg h c
  have hsum : sumOf s' c = sumOf s c := by
    rw [sumOf, sumOf, hslots, hcfg, htick]
    refine Finset.sum_congr rfl fun j hj => ?_
    rw [(h c j).2 (Finset.mem_filter.mp hj).2]
  rw [mixOf, mixOf, hslots, hsum]

theorem outputOf_of_sameActiveSlots : outputOf s' = outputOf s := by
  have hmix : mixOf s' = mixOf s := funext (mixOf_of_sameActiveSlots hcfg htick h)
  rw [outputOf, outputOf, soundingChannels, soundingChannels, hcfg, hmix]

end sameActive

/-- Settles O26: the rule's output reads active slots alone. -/
theorem inactiveSlotsDoNotReachTheSample : Obligations.InactiveSlotsDoNotReachTheSample := by
  intro s s' hshaped hshaped' hcfg htick h
  have houtput : s'.outputSample = s.outputSample := by
    rw [outputSample_eq_outputOf hshaped, outputSample_eq_outputOf hshaped']
    exact outputOf_of_sameActiveSlots hcfg htick (sameActiveSlots_of_slot? hshaped hshaped' hcfg h)
  refine ⟨_, _, _, exec_tick s, exec_tick s', rfl, ?_⟩
  rw [State.emit_responses, State.advance_responses, houtput]

end Sys2Proof.Machine
end

