-- ==== Sys2Proof/Proofs/NoTrap.lean ====
section
/-! The block has no exception and no trap (R200), and holds its state when it has nothing to do (R210). -/

namespace Sys2Proof.Machine

open Sys2Proof

/-- Every command's arm answers a next state (R200). -/
theorem exec_isNext (i : Instr) (s : State) : isNext (exec i s) = true := by
  obtain ⟨voices, tick, r, h⟩ := exec_eq_next i s
  rw [h, isNext]

/-- Settles O48: a step applies a reset, holds the state or executes a command, and each of the three answers a next state. -/
theorem noStepStopsTheBlock : Obligations.NoStepStopsTheBlock := by
  refine ⟨fun s => ?_, exec_isNext⟩
  rcases step_cases s with ⟨timing, _, h⟩ | ⟨_, _, h⟩ | ⟨w, t, _, _, h⟩
  · rw [h, isNext]
  · rw [h, isNext]
  · rw [h, exec_isNext]

/-- Settles O43: with no reset to apply and no command to accept, a step can only hold the state. -/
theorem idleBlockHoldsItsState : Obligations.IdleBlockHoldsItsState := by
  intro s hr hc he
  have haccept : s.accept = none := (accept_eq_none_iff s).mpr ⟨hc, he⟩
  rcases step_cases s with ⟨timing, hr', _⟩ | ⟨_, _, h⟩ | ⟨w, t, _, haccept', _⟩
  · cases hr.symm.trans hr'
  · exact h
  · cases haccept.symm.trans haccept'

end Sys2Proof.Machine
end

