-- ==== Sys2Proof/Proofs/ResetState.lean ====
section
/-! Reset (R230 to R232): the state it leaves, that it comes before any command, and the silent TICK after it. -/

namespace Sys2Proof.Machine

open Sys2Proof Sys2Proof.Rules

/-- A step with reset asserted applies the reset, whatever waits at the port (R231). -/
theorem step_of_resetLine {s : State} {timing : ResetTiming} (h : s.resetLine = some timing) :
    step s = .next (s.applyReset timing) := by
  simp only [step, h]

/-! ### The state after reset -/

/-- `NCH` as R6 states it. -/
theorem numChannels_eq_ite (cfg : Config) : numChannels cfg = if cfg.poolMode = .flat then 1 else 16 := by
  unfold numChannels
  cases cfg.poolMode <;> rfl

/-- Reading a slot reads the register file only. -/
theorem State.slot?_congr {s t : State} (h : s.voices = t.voices) (c j : Nat) : s.slot? c j = t.slot? c j := by
  rw [State.slot?, State.row, h, State.slot?, State.row]

/-- A register file at its reset values has exactly the slots of its parameters, each a reset slot (R22, R230). -/
theorem State.slot?_of_resetPool {s : State} {cfg : Config} (h : s.voices = resetPool cfg) (c j : Nat) :
    s.slot? c j =
      if c < (if cfg.poolMode = .flat then 1 else 16) ∧ j < cfg.voicesPerChannel then some resetSlot else none := by
  rw [State.slot?_congr (h.trans (State.resetWith_voices cfg).symm), State.resetWith_slot?, numChannels_eq_ite]
  rfl

/-- Settles O45: at power-up and after an asserted reset the register file is `resetPool` of the block's parameters. -/
theorem resetSetsEverySlotAndTheCounter : Obligations.ResetSetsEverySlotAndTheCounter := by
  refine ⟨fun cfg c j => ⟨rfl, rfl, State.slot?_of_resetPool rfl c j⟩, fun s timing hr => ?_⟩
  obtain ⟨hcfg, hvoices, htick, -, hresponses⟩ := applyReset_frame s timing
  exact ⟨_, step_of_resetLine hr, htick, hresponses, hcfg, State.slot?_of_resetPool hvoices⟩

/-! ### Reset and the waiting commands -/

/-- Aborting takes at most one command, from the head of one stream (R231). -/
theorem abort_streams (s : State) :
    (s.clockStream = [] ∧ s.eventStream = [] ∧ s.abort.clockStream = [] ∧ s.abort.eventStream = []) ∨
    (∃ w, s.clockStream = w :: s.abort.clockStream ∧ s.abort.eventStream = s.eventStream) ∨
    (∃ w, s.eventStream = w :: s.abort.eventStream ∧ s.abort.clockStream = s.clockStream) := by
  unfold State.abort
  cases haccept : s.accept with
  | none =>
    obtain ⟨hc, he⟩ := (accept_eq_none_iff s).mp haccept
    exact .inl ⟨hc, he, hc, he⟩
  | some taken =>
    obtain ⟨w, t⟩ := taken
    exact .inr ((accept_streams haccept).imp (⟨w, ·⟩) (⟨w, ·⟩))

/-- Settles O46: reset clears the block, and of the port it takes what an abort takes. -/
theorem resetTakesPrecedenceOverCommands : Obligations.ResetTakesPrecedenceOverCommands := by
  refine ⟨fun s hr => ⟨_, step_of_resetLine hr, rfl, rfl, rfl, rfl⟩, fun s hr => ?_⟩
  obtain ⟨-, -, -, hline, hresponses⟩ := applyReset_frame s .duringCommand
  exact ⟨_, step_of_resetLine hr, hline, hresponses, abort_streams s⟩

/-! ### The first TICK -/

/-- With no slot active a TICK writes the counter alone (R167, R173). -/
theorem State.advance_of_silent {s : State} (h : ∀ row ∈ s.voices, ∀ v ∈ row, v.active = false) :
    s.advance = { s with tick := s.tick + 1 } := by
  have hrow : ∀ row ∈ s.voices, row.map (fun v => v.advance s.cfg s.tick) = row := fun row hrow =>
    (List.map_congr_left fun v hv => Voice.advance_of_inactive _ _ v (h row hrow v hv)).trans (List.map_id' row)
  have hvoices : s.voices.map (fun row => row.map fun v => v.advance s.cfg s.tick) = s.voices :=
    (List.map_congr_left hrow).trans (List.map_id' s.voices)
  rw [State.advance, hvoices, State.withPoolAndTick]

/-- No slot is active at reset (R230). -/
theorem inactive_of_mem_resetPool {cfg : Config} : ∀ row ∈ resetPool cfg, ∀ v ∈ row, v.active = false := by
  intro row hrow v hv
  rw [List.eq_of_mem_replicate hrow] at hv
  rw [List.eq_of_mem_replicate hv, Voice.reset_active]

/-- Settles O47: reset leaves no slot active, so the sample is 0 and no slot advances. -/
theorem firstTickAfterResetIsSilent : Obligations.FirstTickAfterResetIsSilent := by
  intro cfg
  have hsilent : ∀ row ∈ (State.resetWith cfg).voices, ∀ v ∈ row, v.active = false := inactive_of_mem_resetPool
  rw [exec_tick, State.outputSample_of_silent hsilent, State.advance_of_silent hsilent]
  rfl

end Sys2Proof.Machine
end
